-- ==== Sys2Proof/Word.lean ====
section
/-! DEFINITION. The words NKCORE works on: bytes, and 64-bit unsigned keys (spec 00_scope.md R6, R8, R9). -/

namespace Sys2Proof

/-- One byte of a port, a register or the command word. -/
abbrev Byte := BitVec 8

/-- A 64-bit unsigned value, KEY_W bits wide (R6): bit 0 is the least significant (R8), arithmetic wraps (R9). -/
abbrev Word := BitVec 64

end Sys2Proof
end

