-- ==== Sys2Proof/Machine/Ports.lean ====
section
/-! DEFINITION. The input ports the host drives (spec 10_state.md R21). -/

namespace Sys2Proof.Machine

/-- The input ports of R21. The two array ports have a place for each of the 255 bytes that the largest allowed capacity
gives them (R7). A block built with a smaller NUM_IN_MAX or HEX_IN_MAX has only the bytes below it, and no command reads a byte
at or above the length port (R22). DESIGN CHOICE (log entry 8), safe. -/
structure Ports where
  /-- CMD: the command word. -/
  cmd : Byte
  /-- A: first packed-key operand. -/
  a : Word
  /-- B: second packed-key operand. -/
  b : Word
  /-- CTRY_IN: the country, index 0 the first letter. -/
  ctryIn : Vector Byte 2
  /-- NUM_IN: the digit bytes, index 0 the most significant digit. -/
  numIn : Vector Byte 255
  /-- NUM_LEN: how many bytes of NUM_IN are valid. -/
  numLen : BitVec 8
  /-- HEX_IN: the hex text, index 0 the leftmost character. -/
  hexIn : Vector Byte 255
  /-- HEX_LEN: how many bytes of HEX_IN are valid. -/
  hexLen : BitVec 8
  deriving DecidableEq, Repr

/-- Every port at zero. -/
def Ports.zero : Ports where
  cmd := 0
  a := 0
  b := 0
  ctryIn := Vector.replicate 2 0
  numIn := Vector.replicate 255 0
  numLen := 0
  hexIn := Vector.replicate 255 0
  hexLen := 0

end Sys2Proof.Machine
end

