-- ==== Sys2Proof/Config.lean ====
section
/-! DEFINITION. The parameters the spec leaves to the implementation (spec 00_scope.md R7): NUM_IN_MAX, HEX_IN_MAX and BYTE_EXT as a
record that the state carries unchanged, LATENCY as a function with no body. -/

namespace Sys2Proof

/-- BYTE_EXT (R7, R10): how an input byte is widened to 64 bits. -/
inductive ByteExt where
  /-- ZEXT: with zero bits. -/
  | zext
  /-- SEXT: with copies of the byte's top bit. -/
  | sext
  deriving DecidableEq, Repr

/-- The build parameters that a result can depend on (R7). "A model takes each as an argument": the state carries them and no
step changes them, so a statement about every state holds for every value. DESIGN CHOICE (log entry 1), safe. -/
structure Config where
  /-- NUM_IN_MAX, 16 to 255. -/
  numInMax : Nat
  /-- HEX_IN_MAX, 16 to 255. -/
  hexInMax : Nat
  /-- BYTE_EXT. -/
  byteExt : ByteExt
  deriving DecidableEq, Repr

/-- The default parameters of R7: NUM_IN_MAX = 32, HEX_IN_MAX = 16, BYTE_EXT = ZEXT. -/
def Config.default : Config := ⟨32, 16, .zext⟩

/-- LATENCY − 1 for a command accepted with these ports. R7 allows any whole number of cycles from 1 up, and R154 lets it differ per
command and per operand, so it has no body and nothing can be proved of its value (log entry 2), safe. -/
opaque Config.latencyLessOne : Machine.Ports → Nat

/-- LATENCY (R7): clock edges from the accept to the completion, at least 1 (90_conflicts.md C5). -/
def Config.latency (p : Machine.Ports) : Nat := Config.latencyLessOne p + 1

end Sys2Proof
end

