-- ==== Sys2Proof/Syntax.lean ====
section
/-! DEFINITION. The commands of NKCORE-1 (spec 30_encoding.md R53), one constructor per row of opcode_table.json, and the
three fields of a command word (R50). No command carries an operand in its word: operands are ports (R61). -/

namespace Sys2Proof

/-- The eleven commands of R53, in the order of opcode_table.json. -/
inductive Instr where
  /-- NK.ENC, 0x01: NumKey encode, unchecked (R72). -/
  | nkEnc
  /-- NK.ENC.C, 0x11: NumKey encode, checked (R73). -/
  | nkEncC
  /-- NK.DEC, 0x02: NumKey decode (R74). -/
  | nkDec
  /-- NK.CMPC, 0x03: NumKey country comparison (R75). -/
  | nkCmpc
  /-- NK.TOHEX, 0x04: NumKey to hex text (R91). -/
  | nkToHex
  /-- NK.FROMHEX, 0x05: hex text to NumKey (R92). -/
  | nkFromHex
  /-- PK.ENC, 0x06: PrefixKey encode, unchecked (R100). -/
  | pkEnc
  /-- PK.ENC.C, 0x16: PrefixKey encode, checked (R101). -/
  | pkEncC
  /-- CK.ENC, 0x07: CountryKey encode, unchecked (R110). -/
  | ckEnc
  /-- CK.ENC.C, 0x17: CountryKey encode, checked (R111). -/
  | ckEncC
  /-- CK.DEC, 0x08: CountryKey decode (R112). -/
  | ckDec
  deriving DecidableEq, Repr

/-- The fields of a command word (R50): RSV [7:5], CHK [4], OP [3:0]. -/
structure CmdFields where
  rsv : BitVec 3
  chk : Bool
  op : BitVec 4
  deriving DecidableEq, Repr

end Sys2Proof
end

