-- ==== Sys2Proof/WellFormed.lean ====
section
/-! DEFINITION. What a well-formed command word and a well-formed set of parameters are (spec 30_encoding.md R50 to R52, R55;
00_scope.md R7), and the in-domain inputs of R14. -/

namespace Sys2Proof

/-- R50: the reserved bits are 000. -/
def CmdFields.rsvOk (f : CmdFields) : Bool := f.rsv == 0

/-- R51: OP names an operation, 0x1 to 0x8. -/
def CmdFields.opOk (f : CmdFields) : Bool := decide (1 ≤ f.op.toNat) && decide (f.op.toNat ≤ 8)

/-- R52: CHK = 1 only with OP = 0x1, 0x6 or 0x7. -/
def CmdFields.chkOk (f : CmdFields) : Bool := !f.chk || f.op == 0x1 || f.op == 0x6 || f.op == 0x7

/-- A command word's fields are well-formed when they are those of one of the eleven legal words (R53, R55). -/
def CmdFields.wf (f : CmdFields) : Bool := f.rsvOk && f.opOk && f.chkOk

/-- R7: NUM_IN_MAX is in 16 .. 255. -/
def Config.numOk (c : Config) : Bool := decide (16 ≤ c.numInMax) && decide (c.numInMax ≤ 255)

/-- R7: HEX_IN_MAX is in 16 .. 255. -/
def Config.hexOk (c : Config) : Bool := decide (16 ≤ c.hexInMax) && decide (c.hexInMax ≤ 255)

/-- The parameters have values R7 allows (every value of BYTE_EXT is allowed). -/
def Config.wf (c : Config) : Bool := c.numOk && c.hexOk

end Sys2Proof
end

