-- ==== Sys2Proof/Decode.lean ====
section
/-! DEFINITION. Decoding a command word (spec 30_encoding.md R50 to R56) and encoding a command, from the tables R51 and R53. -/

namespace Sys2Proof

/-- Why a command word is illegal (R54, R55). All three are the one error ILLEGAL_CMD (R124). -/
inductive DecodeError where
  /-- RSV ≠ 000. -/
  | reservedBits
  /-- OP = 0x0 or 0x9 .. 0xF. -/
  | reservedOp
  /-- CHK = 1 with an operation that has no checked variant (R52). -/
  | checkNotAllowed
  deriving DecidableEq, Repr

/-- The fields of a command word (R50). -/
def fieldsOf (w : Byte) : CmdFields := ⟨w.extractLsb' 5 3, w.getLsbD 4, w.extractLsb' 0 4⟩

/-- A row of R53 that exists with CHK = 0 alone. -/
def uncheckedOnly (chk : Bool) (i : Instr) : Except DecodeError Instr :=
  if chk then .error .checkNotAllowed else .ok i

/-- The decoder of R54 on the three fields, with the rows of R51 and R53. -/
def decodeFields (f : CmdFields) : Except DecodeError Instr :=
  if f.rsv ≠ 0 then .error .reservedBits
  else match f.op.toNat with
    | 1 => .ok (if f.chk then .nkEncC else .nkEnc)
    | 2 => uncheckedOnly f.chk .nkDec
    | 3 => uncheckedOnly f.chk .nkCmpc
    | 4 => uncheckedOnly f.chk .nkToHex
    | 5 => uncheckedOnly f.chk .nkFromHex
    | 6 => .ok (if f.chk then .pkEncC else .pkEnc)
    | 7 => .ok (if f.chk then .ckEncC else .ckEnc)
    | 8 => uncheckedOnly f.chk .ckDec
    | _ => .error .reservedOp

/-- The decoder (R54), total on the 256 command words: one of the eleven commands, or the reason the word is illegal. -/
def decode (w : Byte) : Except DecodeError Instr := decodeFields (fieldsOf w)

/-- The OP and CHK fields of a command (R51 to R53), with RSV = 000. -/
def cmdFieldsOf : Instr → CmdFields
  | .nkEnc => ⟨0, false, 0x1⟩
  | .nkEncC => ⟨0, true, 0x1⟩
  | .nkDec => ⟨0, false, 0x2⟩
  | .nkCmpc => ⟨0, false, 0x3⟩
  | .nkToHex => ⟨0, false, 0x4⟩
  | .nkFromHex => ⟨0, false, 0x5⟩
  | .pkEnc => ⟨0, false, 0x6⟩
  | .pkEncC => ⟨0, true, 0x6⟩
  | .ckEnc => ⟨0, false, 0x7⟩
  | .ckEncC => ⟨0, true, 0x7⟩
  | .ckDec => ⟨0, false, 0x8⟩

/-- A command word from its fields (R50): RSV in [7:5], CHK in [4], OP in [3:0]. -/
def packFields (f : CmdFields) : Byte := f.rsv ++ BitVec.ofBool f.chk ++ f.op

/-- The command word of a command (R53). -/
def encode (i : Instr) : Byte := packFields (cmdFieldsOf i)

/-- The command the decoder reads from a row of opcode_table.json: a command word is the 8 bits `w`, whole (R56). -/
def decodeTableWord (nbits w : Nat) : Option Instr :=
  if nbits = 8 ∧ w < 256 then
    match decode (BitVec.ofNat 8 w) with
    | .ok i => some i
    | .error _ => none
  else none

end Sys2Proof
end

