-- ==== Sys2Proof/Machine/State.lean ====
section
/-! DEFINITION. NKCORE's state (spec 10_state.md R23, R26, R35, R36; 70_reset_and_hazards.md R144 to R147), the host's coming actions,
the ways a step can stop, and the state after reset. -/

namespace Sys2Proof.Machine

/-- The result registers other than STATUS (R23). Every command writes all of them (R24, R25). -/
structure Results where
  /-- RES: the integer result. -/
  res : Word
  /-- CTRY_OUT: the decoded country, index 0 the first letter. -/
  ctryOut : Vector Byte 2
  /-- NUM_OUT: the decoded digits, index 0 the leftmost. -/
  numOut : Vector Byte 15
  /-- NUM_OUT_LEN: how many bytes of NUM_OUT are valid. -/
  numOutLen : BitVec 4
  /-- HEX_OUT: the hex text, index 0 the most significant nibble. -/
  hexOut : Vector Byte 16
  deriving DecidableEq, Repr

/-- Every result register zero (R24, R25, R36). -/
def Results.zero : Results where
  res := 0
  ctryOut := Vector.replicate 2 0
  numOut := Vector.replicate 15 0
  numOutLen := 0
  hexOut := Vector.replicate 16 0

/-- The signal-level phase (R145). -/
inductive Phase where
  /-- IDLE: CMD_READY may be 1. -/
  | idle
  /-- BUSY: a command has been accepted, and `wait` more clock edges pass before the edge that completes it (R147). -/
  | busy (wait : Nat)
  deriving DecidableEq, Repr

/-- One action of the host at transaction level (R5, R20, R149). -/
inductive HostAction where
  /-- The host presents a command word with its operand ports, keeps it until the accept and waits for the completion. -/
  | command (p : Ports)
  /-- The host lets clock edges pass with CMD_VALID = 0 (R137). -/
  | idle
  /-- The host asserts RST while no command is in flight (R140, R141). -/
  | reset
  /-- The host presents a command and asserts RST after its accept, before its completion (R140). -/
  | abort (p : Ports)
  deriving DecidableEq, Repr

/-- STATUS.ERR of an error (R27, R121). -/
inductive ErrCode where
  /-- ILLEGAL_CMD: raised by the decoder (R124). -/
  | illegalCmd
  /-- LENGTH_RANGE: raised by a command that reads a length port (R125). -/
  | lengthRange
  /-- INVALID_INPUT: raised by the checked commands (R126). -/
  | invalidInput
  /-- FORMAT_ERROR: raised by NK.FROMHEX (R127). -/
  | formatError
  deriving DecidableEq, Repr

/-- STATUS.EOPND: the operand class of an error (R28). -/
inductive Opnd where
  | none
  | country
  | number
  | hex
  deriving DecidableEq, Repr

/-- STATUS.ESUB: the sub-reason of an error (R29). -/
inductive SubReason where
  | none
  | empty
  | nonHex
  | overflow
  deriving DecidableEq, Repr

/-- What `raise E(opnd, idx, sub)` records (R12, R123). -/
structure ErrInfo where
  err : ErrCode
  opnd : Opnd
  idx : Byte
  sub : SubReason
  deriving DecidableEq, Repr

/-- NKCORE's state, beside the model's own `cfg` and `requests`. -/
structure State where
  /-- The build parameters (R7, R34): the model's own field, never changed. -/
  cfg : Config
  /-- RES, CTRY_OUT, NUM_OUT, NUM_OUT_LEN, HEX_OUT (R23). -/
  results : Results
  /-- STATUS (R26), a word the host reads whole. -/
  status : BitVec 32
  /-- IDLE or BUSY (R145). -/
  phase : Phase
  /-- DONE (R144, R147). -/
  done : Bool
  /-- CMD and the operand ports as sampled at the last accept: `P.NAME` of every rule (R12, R21, R146). -/
  sampled : Ports
  /-- The host's coming actions, the next one first: the model's own field, for the inputs of the steps to come (R20, R21). -/
  requests : List HostAction
  deriving DecidableEq, Repr

/-- Why the machine has no further step. -/
inductive Fault where
  /-- Raised by `step` when no command is in flight and the host has no further action: the run is stuck there
  (93_implementation_defined.md U14). Safe: the model stops where NKCORE would go on waiting unchanged. -/
  | hostPresentsNothing
  deriving DecidableEq, Repr

/-- Why a command has no meaning in the model. No command is refused: every arm of `exec` calls a meaning. -/
inductive Refusal where
  /-- Raised only by an arm of `exec` for a command that has no meaning yet, of which there is none. Safe. -/
  | notModelled (mnemonic : String)
  deriving DecidableEq, Repr

/-- The state after reset (R36, R141): every register zero, the phase IDLE, DONE 0 (DEDUCED, log entry 6), the parameters at the
defaults of R7. The sampled ports are zero (DESIGN CHOICE, log entry 5) and the host has presented nothing (log entry 3). -/
def State.reset : State where
  cfg := Config.default
  results := Results.zero
  status := 0
  phase := .idle
  done := false
  sampled := Ports.zero
  requests := []

end Sys2Proof.Machine
end

