-- ==== Sys2Proof/Machine/Flags.lean ====
section
/-! DEFINITION. STATUS: its fields (spec 10_state.md R26 to R32) and what the completion of a command writes to it (R33). -/

namespace Sys2Proof.Machine

/-- STATUS.ERR, bits [2:0] (R27). -/
def Status.err (st : BitVec 32) : BitVec 3 := st.extractLsb' 0 3

/-- Bit [3] of STATUS, reserved (R26). -/
def Status.rsvLow (st : BitVec 32) : BitVec 1 := st.extractLsb' 3 1

/-- STATUS.EOPND, bits [5:4] (R28). -/
def Status.eopnd (st : BitVec 32) : BitVec 2 := st.extractLsb' 4 2

/-- STATUS.ESUB, bits [7:6] (R29). -/
def Status.esub (st : BitVec 32) : BitVec 2 := st.extractLsb' 6 2

/-- STATUS.EIDX, bits [15:8] (R30). -/
def Status.eidx (st : BitVec 32) : BitVec 8 := st.extractLsb' 8 8

/-- STATUS.SERR, bit [16] (R31). -/
def Status.serr (st : BitVec 32) : BitVec 1 := st.extractLsb' 16 1

/-- STATUS.CMDV, bit [17] (R32). -/
def Status.cmdv (st : BitVec 32) : BitVec 1 := st.extractLsb' 17 1

/-- Bits [23:18] of STATUS, reserved (R26). -/
def Status.rsvHigh (st : BitVec 32) : BitVec 6 := st.extractLsb' 18 6

/-- STATUS.LCMD, bits [31:24] (R33). -/
def Status.lcmd (st : BitVec 32) : BitVec 8 := st.extractLsb' 24 8

/-- A STATUS word from its fields, the reserved bits 0 (R26). -/
def Status.pack (err : BitVec 3) (eopnd esub : BitVec 2) (eidx : BitVec 8) (serr cmdv : BitVec 1) (lcmd : BitVec 8) :
    BitVec 32 :=
  lcmd ++ 0#6 ++ cmdv ++ serr ++ eidx ++ esub ++ eopnd ++ 0#1 ++ err

/-- The value of STATUS.ERR for an error (R27). -/
def ErrCode.code : ErrCode → BitVec 3
  | .illegalCmd => 1
  | .lengthRange => 2
  | .invalidInput => 3
  | .formatError => 4

/-- The value of STATUS.EOPND (R28). -/
def Opnd.code : Opnd → BitVec 2
  | .none => 0
  | .country => 1
  | .number => 2
  | .hex => 3

/-- The value of STATUS.ESUB (R29). -/
def SubReason.code : SubReason → BitVec 2
  | .none => 0
  | .empty => 1
  | .nonHex => 2
  | .overflow => 3

/-- What the completion of a command writes to STATUS (R33): `e` is the raised error, if any, `old` the STATUS before, `cmd` the
command word as accepted. -/
def nextStatus (e : Option ErrInfo) (old : BitVec 32) (cmd : Byte) : BitVec 32 :=
  match e with
  | none => Status.pack 0 0 0 0 (Status.serr old) 1 cmd
  | some e => Status.pack e.err.code e.opnd.code e.sub.code e.idx 1 1 cmd

end Sys2Proof.Machine
end

