-- ==== Sys2Proof/Machine/Ops.lean ====
section
/-! DEFINITION. The shared operations on the state: completing a command with or without an error (spec 10_state.md R24, R25, R33;
60_exceptions.md R120, R123), accepting a command (70_reset_and_hazards.md R146) and reset (R140, R141). -/

namespace Sys2Proof.Machine

/-- A command completes without error (R24, R33, R147): every result register is written, those the command does not produce
being zero in `r`; STATUS is written; the phase returns to IDLE and DONE is raised. -/
def complete (r : Results) (s : State) : State :=
  { s with results := r, status := nextStatus none s.status s.sampled.cmd, phase := .idle, done := true }

/-- `raise E(opnd, idx, sub)` (R123): every result register zero, STATUS records the error, and the command is complete (R120,
R147). There is no trap and nothing to return from (R130). -/
def raise (e : ErrInfo) (s : State) : State :=
  { s with results := Results.zero, status := nextStatus (some e) s.status s.sampled.cmd, phase := .idle, done := true }

/-- The end of every command (R122): all its checks are decided first, then it either raises the first error or writes the
whole result. -/
def finish (check : Option ErrInfo) (r : Results) (s : State) : Host.Outcome State Fault Refusal :=
  match check with
  | none => .next (complete r s)
  | some e => .next (raise e s)

/-- Accept (R146): CMD and every operand port are sampled, and NKCORE is BUSY until the edge LATENCY edges later (R147). The result
registers and STATUS keep their values. DONE, raised for one cycle, is 0 again (R144). -/
def accept (p : Ports) (s : State) : State :=
  { s with sampled := p, phase := .busy (Config.latencyLessOne p), done := false }

/-- A clock edge without RST at which NKCORE is IDLE and no command is presented: the result registers and STATUS keep their
values (R137), and DONE is 0 after its one cycle (R144). -/
def idleEdge (s : State) : State := { s with done := false }

/-- Reset (R140, R141): every piece of state takes its value of R36, whatever the phase, so that a command in flight is abandoned
and raises no DONE. The build parameters and the host's coming actions are not NKCORE's state. -/
def resetOp (s : State) : State := { State.reset with cfg := s.cfg, requests := s.requests }

end Sys2Proof.Machine
end

