-- ==== Sys2Proof/Machine/Operands.lean ====
section
/-! DEFINITION. The operands a command reads from the sampled ports (spec 10_state.md R22, 30_encoding.md R61), the widening of a byte
(00_scope.md R10), digit accumulation (40_numkey.md R71) and the checks that raise LENGTH_RANGE and INVALID_INPUT (60_exceptions.md R125, R126). -/

namespace Sys2Proof.Machine

/-- `widen(b)` (R10): a byte widened to 64 bits as BYTE_EXT says. -/
def widen (ext : ByteExt) (b : Byte) : Word :=
  match ext with
  | .zext => b.setWidth 64
  | .sext => b.signExtend 64

/-- NUM_LEN as a number. -/
def numCount (s : State) : Nat := s.sampled.numLen.toNat

/-- The number operand NUM_IN[0 .. NUM_LEN−1] (R22, R61). -/
def numBytes (s : State) : List Byte := s.sampled.numIn.toList.take (numCount s)

/-- HEX_LEN as a number. -/
def hexCount (s : State) : Nat := s.sampled.hexLen.toNat

/-- The hex operand HEX_IN[0 .. HEX_LEN−1] (R22, R61). -/
def hexBytes (s : State) : List Byte := s.sampled.hexIn.toList.take (hexCount s)

/-- The value of a decimal digit byte in the accumulation of R71: `byte − '0'` after widening, modulo 2^64. -/
def digitValue (ext : ByteExt) (b : Byte) : Word := widen ext b - 48

/-- `acc` of R71 over a sequence of bytes, the most significant digit first, modulo 2^64. -/
def accumulate (ext : ByteExt) (bytes : List Byte) : Word :=
  bytes.foldl (fun v b => v * 10 + digitValue ext b) 0

/-- A byte in 'A' .. 'Z' (R14, R126). -/
def isUpper (b : Byte) : Bool := decide (0x41 ≤ b.toNat) && decide (b.toNat ≤ 0x5A)

/-- A byte in '0' .. '9' (R14, R126). -/
def isDigit (b : Byte) : Bool := decide (0x30 ≤ b.toNat) && decide (b.toNat ≤ 0x39)

/-- LENGTH_RANGE on NUM_LEN (R125). -/
def checkNumLen (s : State) : Option ErrInfo :=
  if s.cfg.numInMax < numCount s then some ⟨.lengthRange, .number, 0, .none⟩ else none

/-- LENGTH_RANGE on HEX_LEN (R125). -/
def checkHexLen (s : State) : Option ErrInfo :=
  if s.cfg.hexInMax < hexCount s then some ⟨.lengthRange, .hex, 0, .none⟩ else none

/-- INVALID_INPUT at the first byte of CTRY_IN outside 'A' .. 'Z' (R126, R129). -/
def checkCountry (s : State) : Option ErrInfo :=
  (s.sampled.ctryIn.toList.findIdx? (fun b => !isUpper b)).map fun k => ⟨.invalidInput, .country, BitVec.ofNat 8 k, .none⟩

/-- INVALID_INPUT at the first byte of the number operand outside '0' .. '9' (R126, R129). -/
def checkNumber (s : State) : Option ErrInfo :=
  ((numBytes s).findIdx? (fun b => !isDigit b)).map fun k => ⟨.invalidInput, .number, BitVec.ofNat 8 k, .none⟩

end Sys2Proof.Machine
end

