-- ==== Sys2Proof/Machine/CountryKey.lean ====
section
/-! DEFINITION. The CountryKey codec (spec 43_countrykey.md R110 to R112): CK.ENC, CK.ENC.C, CK.DEC, with the layout of 30_encoding.md R58. -/

namespace Sys2Proof.Machine

/-- RES of CK.ENC (R110): the two widened bytes, cut to 16 bits and zero-extended. -/
def ckEncode (s : State) : Word :=
  (((widen s.cfg.byteExt s.sampled.ctryIn[0] <<< 8) ||| widen s.cfg.byteExt s.sampled.ctryIn[1]).setWidth 16).setWidth 64

/-- CK.ENC (R110). -/
def execCkEnc (s : State) : Host.Outcome State Fault Refusal :=
  finish none { Results.zero with res := ckEncode s } s

/-- CK.ENC.C (R111). -/
def execCkEncC (s : State) : Host.Outcome State Fault Refusal :=
  finish (checkCountry s) { Results.zero with res := ckEncode s } s

/-- CK.DEC (R112): A[63:16] is ignored. -/
def execCkDec (s : State) : Host.Outcome State Fault Refusal :=
  finish none
    { Results.zero with ctryOut := #v[s.sampled.a.extractLsb' 8 8, s.sampled.a.extractLsb' 0 8] } s

end Sys2Proof.Machine
end

