-- ==== Sys2Proof/Machine/NumKey.lean ====
section
/-! DEFINITION. The NumKey codec (spec 40_numkey.md R70 to R75): NK.ENC, NK.ENC.C, NK.DEC, NK.CMPC, with the layout of 30_encoding.md R57
and the field functions of R60. -/

namespace Sys2Proof.Machine

/-- `nk_l1` (R60): bits [63:59]. -/
def nkL1 (a : Word) : BitVec 5 := a.extractLsb' 59 5

/-- `nk_l2` (R60): bits [58:54]. -/
def nkL2 (a : Word) : BitVec 5 := a.extractLsb' 54 5

/-- `nk_num` (R60): bits [53:4]. -/
def nkNum (a : Word) : BitVec 50 := a.extractLsb' 4 50

/-- `nk_len` (R60): bits [3:0]. -/
def nkLen (a : Word) : BitVec 4 := a.extractLsb' 0 4

/-- `nk_cc` (R60): bits [63:54], both letter fields. -/
def nkCc (a : Word) : BitVec 10 := a.extractLsb' 54 10

/-- `nk_country(c0, c1)` (R70): nothing is masked, so a byte outside 'A' .. 'Z' can reach its neighbour's bits (R80). -/
def nkCountry (ext : ByteExt) (c0 c1 : Byte) : Word :=
  ((widen ext c0 - 64) <<< 59) ||| ((widen ext c1 - 64) <<< 54)

/-- The bytes of the number that NK.ENC encodes (R72): the last 15 when there are more. -/
def nkKept (bytes : List Byte) : List Byte :=
  if 15 < bytes.length then bytes.drop (bytes.length - 15) else bytes

/-- The length field of NK.ENC (R72): the digit count, or 0 when it exceeds 15. -/
def nkLenField (n : Nat) : Word := if 15 < n then 0 else BitVec.ofNat 64 n

/-- RES of NK.ENC (R72). -/
def nkEncode (s : State) : Word :=
  nkCountry s.cfg.byteExt s.sampled.ctryIn[0] s.sampled.ctryIn[1]
    ||| (accumulate s.cfg.byteExt (nkKept (numBytes s)) <<< 4)
    ||| (nkLenField (numCount s) &&& 0xF)

/-- NK.ENC (R72). -/
def execNkEnc (s : State) : Host.Outcome State Fault Refusal :=
  finish (checkNumLen s) { Results.zero with res := nkEncode s } s

/-- NK.ENC.C (R73): the length, then the country, then the number is checked (R129). -/
def execNkEncC (s : State) : Host.Outcome State Fault Refusal :=
  finish (checkNumLen s <|> checkCountry s <|> checkNumber s) { Results.zero with res := nkEncode s } s

/-- The digit loop of NK.DEC (R74): `size` decimal digits of `m`, the last one filled first. -/
def decimalDigits : Nat → Nat → List Byte
  | 0, _ => []
  | size + 1, m => decimalDigits size (m / 10) ++ [BitVec.ofNat 8 (0x30 + m % 10)]

/-- A letter field decoded to its byte (R74): 64 is added back. -/
def nkLetter (l : BitVec 5) : Byte := l.setWidth 8 + 64

/-- The results of NK.DEC (R74): bytes of NUM_OUT at and above the length are 0x00. -/
def nkDecode (a : Word) : Results :=
  { Results.zero with
    ctryOut := #v[nkLetter (nkL1 a), nkLetter (nkL2 a)]
    numOut := Vector.ofFn fun k => (decimalDigits (nkLen a).toNat (nkNum a).toNat).getD k.val 0
    numOutLen := nkLen a }

/-- NK.DEC (R74): every value of A decodes. -/
def execNkDec (s : State) : Host.Outcome State Fault Refusal :=
  finish none (nkDecode s.sampled.a) s

/-- RES of NK.CMPC (R75): −1, 0 or +1 as a signed 64-bit value, by an unsigned comparison of the two letter fields. -/
def nkCompare (a b : Word) : Word :=
  if (nkCc a).toNat < (nkCc b).toNat then -1
  else if nkCc a = nkCc b then 0
  else 1

/-- NK.CMPC (R75). -/
def execNkCmpc (s : State) : Host.Outcome State Fault Refusal :=
  finish none { Results.zero with res := nkCompare s.sampled.a s.sampled.b } s

end Sys2Proof.Machine
end

