-- ==== Sys2Proof/Machine/NumKeyHex.lean ====
section
/-! DEFINITION. NumKey hex rendering and parsing (spec 41_numkey_hex.md R90 to R92): NK.TOHEX, NK.FROMHEX. -/

namespace Sys2Proof.Machine

/-- `hexchar(d)` (R90): the lowercase hex digit of a nibble. -/
def hexChar (d : BitVec 4) : Byte :=
  if d.toNat ≤ 9 then BitVec.ofNat 8 (0x30 + d.toNat) else BitVec.ofNat 8 (0x61 + (d.toNat - 10))

/-- `hexval(b)` (R90): the value of a hex digit of either case, `none` for INVALID. -/
def hexVal (b : Byte) : Option Nat :=
  if 0x30 ≤ b.toNat ∧ b.toNat ≤ 0x39 then some (b.toNat - 0x30)
  else if 0x61 ≤ b.toNat ∧ b.toNat ≤ 0x66 then some (b.toNat - 0x61 + 10)
  else if 0x41 ≤ b.toNat ∧ b.toNat ≤ 0x46 then some (b.toNat - 0x41 + 10)
  else none

/-- Nibble `i` of a value, counted from the most significant one (R91). -/
def nibble (a : Word) (i : Nat) : BitVec 4 := a.extractLsb' (60 - 4 * i) 4

/-- NK.TOHEX (R91). -/
def execNkToHex (s : State) : Host.Outcome State Fault Refusal :=
  finish none { Results.zero with hexOut := Vector.ofFn fun i => hexChar (nibble s.sampled.a i.val) } s

/-- One digit of the unbounded value of R92; a byte that is not a hex digit has been rejected before. -/
def hexStep (v : Nat) (b : Byte) : Nat := v * 16 + (hexVal b).getD 0

/-- The unbounded value of a hex text (R92). -/
def hexValue (bytes : List Byte) : Nat := bytes.foldl hexStep 0

/-- The index of the byte at which the value, `v` before the byte of index `i`, first reaches 2^64 (R92, R127). -/
def overflowFrom (v i : Nat) : List Byte → Option Nat
  | [] => none
  | b :: bs => if 2 ^ 64 ≤ hexStep v b then some i else overflowFrom (hexStep v b) (i + 1) bs

/-- FORMAT_ERROR EMPTY (R92, R127). -/
def checkHexEmpty (s : State) : Option ErrInfo :=
  if hexCount s = 0 then some ⟨.formatError, .hex, 0, .empty⟩ else none

/-- FORMAT_ERROR NONHEX at the first byte that is not a hex digit (R92, R127). -/
def checkHexDigits (s : State) : Option ErrInfo :=
  ((hexBytes s).findIdx? (fun b => (hexVal b).isNone)).map fun k => ⟨.formatError, .hex, BitVec.ofNat 8 k, .nonHex⟩

/-- FORMAT_ERROR OVERFLOW at the byte where the value first exceeds 2^64 − 1 (R92, R127). -/
def checkHexRange (s : State) : Option ErrInfo :=
  (overflowFrom 0 0 (hexBytes s)).map fun k => ⟨.formatError, .hex, BitVec.ofNat 8 k, .overflow⟩

/-- NK.FROMHEX (R92), with its checks in the order of R129. -/
def execNkFromHex (s : State) : Host.Outcome State Fault Refusal :=
  finish (checkHexLen s <|> checkHexEmpty s <|> checkHexDigits s <|> checkHexRange s)
    { Results.zero with res := BitVec.ofNat 64 (hexValue (hexBytes s)) } s

end Sys2Proof.Machine
end

