-- ==== Sys2Proof/Machine/PrefixKey.lean ====
section
/-! DEFINITION. The PrefixKey codec (spec 42_prefixkey.md R100, R101): PK.ENC, PK.ENC.C. -/

namespace Sys2Proof.Machine

/-- Right padding with `k` zero digits (R100): `k` multiplications by 10, modulo 2^64. -/
def padDigits : Nat → Word → Word
  | 0, v => v
  | k + 1, v => padDigits k (v * 10)

/-- RES of PK.ENC (R100): the first 15 bytes, padded to 15 digit positions. -/
def pkEncode (s : State) : Word :=
  padDigits (15 - min (numCount s) 15) (accumulate s.cfg.byteExt ((numBytes s).take 15))

/-- PK.ENC (R100). -/
def execPkEnc (s : State) : Host.Outcome State Fault Refusal :=
  finish (checkNumLen s) { Results.zero with res := pkEncode s } s

/-- PK.ENC.C (R101): every presented byte is checked, also those past the first 15. -/
def execPkEncC (s : State) : Host.Outcome State Fault Refusal :=
  finish (checkNumLen s <|> checkNumber s) { Results.zero with res := pkEncode s } s

end Sys2Proof.Machine
end

