-- ==== Sys2Proof/Machine/Dispatch.lean ====
section
/-! DEFINITION. The dispatch of a decoded command to its meaning (spec 30_encoding.md R53, R54). -/

namespace Sys2Proof.Machine

def exec (i : Instr) (s : State) : Host.Outcome State Fault Refusal :=
  match i with
  | .nkEnc => Sys2Proof.Machine.execNkEnc s
  | .nkEncC => Sys2Proof.Machine.execNkEncC s
  | .nkDec => Sys2Proof.Machine.execNkDec s
  | .nkCmpc => Sys2Proof.Machine.execNkCmpc s
  | .nkToHex => Sys2Proof.Machine.execNkToHex s
  | .nkFromHex => Sys2Proof.Machine.execNkFromHex s
  | .pkEnc => Sys2Proof.Machine.execPkEnc s
  | .pkEncC => Sys2Proof.Machine.execPkEncC s
  | .ckEnc => Sys2Proof.Machine.execCkEnc s
  | .ckEncC => Sys2Proof.Machine.execCkEncC s
  | .ckDec => Sys2Proof.Machine.execCkDec s

end Sys2Proof.Machine
end

