-- ==== Sys2Proof/Machine/Handshake.lean ====
section
/-! DEFINITION. Running an accepted command; the host's actions at transaction level (spec 70_reset_and_hazards.md R149); and the handshake at signal
level, one clock edge at a time (R140, R144 to R148). -/

namespace Sys2Proof.Machine

/-- What the decoder raises on an illegal word, before any operand is read (R54, R124). -/
def illegalCmd : ErrInfo := ⟨.illegalCmd, .none, 0, .none⟩

/-- The accepted command runs to its completion (R54, R147): the sampled command word is decoded, then the command's meaning, or
ILLEGAL_CMD. -/
def runSampled (s : State) : Host.Outcome State Fault Refusal :=
  match decode s.sampled.cmd with
  | .ok i => exec i s
  | .error _ => .next (raise illegalCmd s)

/-- One action of the host as one atomic step of an idle NKCORE (R149). -/
def transact (act : HostAction) (s : State) : Host.Outcome State Fault Refusal :=
  match act with
  | .command p => runSampled (accept p s)
  | .idle => .next (idleEdge s)
  | .reset => .next (resetOp s)
  | .abort p => .next (resetOp (accept p s))

/-- The input pins at one clock edge (R21, R140, R144). -/
structure Pins where
  /-- RST, active high. -/
  rst : Bool
  /-- CMD_VALID: the host presents a command. -/
  cmdValid : Bool
  /-- CMD and the operand ports. -/
  ports : Ports
  deriving DecidableEq, Repr

/-- CMD_READY (R145): 1 exactly when the phase is IDLE and RST = 0. -/
def cmdReady (rst : Bool) (s : State) : Bool := !rst && decide (s.phase = .idle)

/-- One rising clock edge. RST resets, whatever the phase (R140). A command is accepted when CMD_VALID and CMD_READY are 1 (R146). While
BUSY the pins are ignored and the registers keep their values until the completing edge (R147, R148). -/
def clockEdge (pins : Pins) (s : State) : Host.Outcome State Fault Refusal :=
  if pins.rst then .next (resetOp s)
  else match s.phase with
    | .idle => if pins.cmdValid && cmdReady pins.rst s then .next (accept pins.ports s) else .next (idleEdge s)
    | .busy 0 => runSampled s
    | .busy (n + 1) => .next { s with phase := .busy n, done := false }

/-- Successive clock edges, stopping where an edge does not give a next state. -/
def runEdges : List Pins → State → Host.Outcome State Fault Refusal
  | [], s => .next s
  | pins :: rest, s =>
    match clockEdge pins s with
    | .next t => runEdges rest t
    | .fault f => .fault f
    | .refused r => .refused r

end Sys2Proof.Machine
end

