-- ==== Sys2Proof/Machine/Step.lean ====
section
/-! DEFINITION. One step of NKCORE at transaction level (spec 00_scope.md R5, 70_reset_and_hazards.md R149), and where a command word is placed so that the
next step runs it. -/

namespace Sys2Proof.Machine

/-- One atomic step (R149): a command in flight completes; otherwise the host's next action is carried out; with neither, the run
is stuck (93_implementation_defined.md U14). -/
def step (s : State) : Host.Outcome State Fault Refusal :=
  match s.phase with
  | .busy _ => runSampled s
  | .idle =>
    match s.requests with
    | [] => .fault .hostPresentsNothing
    | act :: rest => transact act { s with requests := rest }

/-- `s` with the host about to present the command word `w`, on operand ports held at the values last sampled: NKCORE is idle and the
command is the host's next action, so that the next step runs it. A command word has 8 bits (R56). -/
def State.withFetchWord (s : State) (_nbits w : Nat) : State :=
  { s with
    phase := .idle
    requests := .command { s.sampled with cmd := BitVec.ofNat 8 w } :: s.requests }

end Sys2Proof.Machine
end

