-- ==== Sys2Proof/Safety.lean ====
section
/-! DEFINITION. The terms the statements use: how a command ends (spec 10_state.md R24, R25, R33), which inputs are in domain (00_scope.md R14), the exact
values of the rules' arithmetic over the integers, what each command reads and writes (30_encoding.md R53), and the states NKCORE can be in. -/

namespace Sys2Proof.Machine

/-- The CMD column of the table of R53. -/
def cmdWord : Instr → Byte
  | .nkEnc => 0x01
  | .nkEncC => 0x11
  | .nkDec => 0x02
  | .nkCmpc => 0x03
  | .nkToHex => 0x04
  | .nkFromHex => 0x05
  | .pkEnc => 0x06
  | .pkEncC => 0x16
  | .ckEnc => 0x07
  | .ckEncC => 0x17
  | .ckDec => 0x08

/-- The words R54 raises IllegalCmd for, by the numbers of the three fields of R50. -/
def IllegalWord (w : Byte) : Prop :=
  w.toNat / 32 ≠ 0 ∨ w.toNat % 16 = 0 ∨ 9 ≤ w.toNat % 16 ∨
    (w.toNat / 16 % 2 = 1 ∧ w.toNat % 16 ≠ 1 ∧ w.toNat % 16 ≠ 6 ∧ w.toNat % 16 ≠ 7)

/-- Every field of a STATUS word (R26), the reserved bits being 0. -/
structure StatusIs (st : BitVec 32) (err : BitVec 3) (eopnd esub : BitVec 2) (eidx : Byte) (serr cmdv : BitVec 1)
    (lcmd : Byte) : Prop where
  err : Status.err st = err
  rsvLow : Status.rsvLow st = 0
  eopnd : Status.eopnd st = eopnd
  esub : Status.esub st = esub
  eidx : Status.eidx st = eidx
  serr : Status.serr st = serr
  cmdv : Status.cmdv st = cmdv
  rsvHigh : Status.rsvHigh st = 0
  lcmd : Status.lcmd st = lcmd

/-- What every completion leaves, with or without error (R147): the phase IDLE and DONE raised; the parameters, the sampled ports
and the host's coming actions are as before. -/
structure Finished (s t : State) : Prop where
  phase : t.phase = .idle
  done : t.done = true
  cfg : t.cfg = s.cfg
  sampled : t.sampled = s.sampled
  requests : t.requests = s.requests

/-- `t` is `s` after a command that completed without error with the result registers `r` (R24, R33). -/
structure CompletedWith (s t : State) (r : Results) : Prop where
  results : t.results = r
  status : StatusIs t.status 0 0 0 0 (Status.serr s.status) 1 s.sampled.cmd
  finished : Finished s t

/-- `t` is `s` after a command that raised an error (R25, R33, R123), with the values of ERR, EOPND, EIDX and ESUB. -/
structure RaisedWith (s t : State) (err : BitVec 3) (eopnd : BitVec 2) (eidx : Byte) (esub : BitVec 2) : Prop where
  results : t.results = Results.zero
  status : StatusIs t.status err eopnd esub eidx 1 1 s.sampled.cmd
  finished : Finished s t

/-- A byte in 'A' .. 'Z' (R14). -/
def Upper (b : Byte) : Prop := 0x41 ≤ b.toNat ∧ b.toNat ≤ 0x5A

/-- A byte in '0' .. '9' (R14). -/
def Digit (b : Byte) : Prop := 0x30 ≤ b.toNat ∧ b.toNat ≤ 0x39

/-- Byte k of NUM_IN. -/
def numAt (s : State) (k : Nat) : Byte := s.sampled.numIn.toList.getD k 0

/-- Byte k of HEX_IN. -/
def hexAt (s : State) (k : Nat) : Byte := s.sampled.hexIn.toList.getD k 0

/-- NUM_IN[lo .. lo+n−1]. -/
def numSlice (s : State) (lo n : Nat) : List Byte := (s.sampled.numIn.toList.drop lo).take n

/-- The country operand is well-formed (R14). -/
def CountryOk (s : State) : Prop := Upper s.sampled.ctryIn[0] ∧ Upper s.sampled.ctryIn[1]

/-- The number operand is well-formed (R14). -/
def NumberOk (s : State) : Prop := ∀ k < s.sampled.numLen.toNat, Digit (numAt s k)

/-- The value of a byte under BYTE_EXT, as an exact integer (R10). -/
def byteInt (ext : ByteExt) (b : Byte) : Int :=
  match ext with
  | .zext => b.toNat
  | .sext => b.toInt

/-- The exact integer whose residue `acc` of R71 is: byte values less 48, weighted by powers of ten, the first byte highest. -/
def decimalInt (ext : ByteExt) : List Byte → Int
  | [] => 0
  | b :: bs => (byteInt ext b - 48) * 10 ^ bs.length + decimalInt ext bs

/-- The decimal value of a sequence of digit bytes. -/
def decimalNat : List Byte → Nat
  | [] => 0
  | b :: bs => (b.toNat - 48) * 10 ^ bs.length + decimalNat bs

/-- The hexadecimal value of a sequence of digit values, the first highest. -/
def hexNat : List Nat → Nat
  | [] => 0
  | d :: ds => d * 16 ^ ds.length + hexNat ds

/-- `b` is a hex digit byte of value `d`, lowercase or digit (R90). -/
def LowerHex (b : Byte) (d : Nat) : Prop :=
  (d ≤ 9 ∧ b.toNat = 0x30 + d) ∨ (10 ≤ d ∧ d ≤ 15 ∧ b.toNat = 0x61 + (d - 10))

/-- `b` is a hex digit byte of value `d`, in either case (R90). -/
def AnyHex (b : Byte) (d : Nat) : Prop := LowerHex b d ∨ (10 ≤ d ∧ d ≤ 15 ∧ b.toNat = 0x41 + (d - 10))

/-- `b` is no hex digit byte (R90, R127). -/
def NotHex (b : Byte) : Prop := ∀ d, ¬ AnyHex b d

/-- HEX_IN[0 .. k−1] are hex digits of the values `ds`. -/
def HexDigits (s : State) (k : Nat) (ds : List Nat) : Prop :=
  ds.length = k ∧ ∀ j < k, AnyHex (hexAt s j) (ds.getD j 0)

/-- The exact integer that NK.ENC accumulates (R71, R72): all NUM_LEN bytes, or the last 15 when there are more. -/
def keptInt (s : State) : Int :=
  if s.sampled.numLen.toNat > 15 then decimalInt s.cfg.byteExt (numSlice s (s.sampled.numLen.toNat - 15) 15)
  else decimalInt s.cfg.byteExt (numSlice s 0 s.sampled.numLen.toNat)

/-- The length field of NK.ENC (R72): NUM_LEN, or 0 when it is above 15. -/
def keptLen (s : State) : Nat := if s.sampled.numLen.toNat > 15 then 0 else s.sampled.numLen.toNat

/-- The exact value of RES of NK.ENC (R70 to R72) as an OR of four terms, each wrapped once. -/
def encodeFormula (s : State) : Word :=
  BitVec.ofInt 64 ((byteInt s.cfg.byteExt s.sampled.ctryIn[0] - 64) * 2 ^ 59)
    ||| BitVec.ofInt 64 ((byteInt s.cfg.byteExt s.sampled.ctryIn[1] - 64) * 2 ^ 54)
    ||| BitVec.ofInt 64 (keptInt s * 2 ^ 4)
    ||| BitVec.ofNat 64 (keptLen s)

/-- The exact value of RES of PK.ENC (R100): the first bytes, weighted up to 15 digit positions, wrapped once. -/
def prefixFormula (s : State) : Word :=
  let t := min s.sampled.numLen.toNat 15
  BitVec.ofInt 64 (decimalInt s.cfg.byteExt (numSlice s 0 t) * 10 ^ (15 - t))

/-- The value of a CountryKey (R110), by the bytes and BYTE_EXT. -/
def countryKeyFormula (s : State) : Nat :=
  if s.cfg.byteExt = .sext ∧ 0x80 ≤ s.sampled.ctryIn[1].toNat then 0xFF00 + s.sampled.ctryIn[1].toNat
  else s.sampled.ctryIn[0].toNat * 256 + s.sampled.ctryIn[1].toNat

/-- The commands whose row of R23 lists RES. -/
def writesRes (i : Instr) : Bool := i ∉ [Instr.nkDec, .nkToHex, .ckDec]

/-- The commands whose row of R23 lists CTRY_OUT. -/
def writesCtryOut (i : Instr) : Bool := i ∈ [Instr.nkDec, .ckDec]

/-- The command whose row of R23 lists NUM_OUT and NUM_OUT_LEN. -/
def writesNumOut (i : Instr) : Bool := i ∈ [Instr.nkDec]

/-- The command whose row of R23 lists HEX_OUT. -/
def writesHexOut (i : Instr) : Bool := i ∈ [Instr.nkToHex]

/-- The two sets of ports agree on CTRY_IN. -/
def sameCountry (p q : Ports) : Prop := p.ctryIn = q.ctryIn

/-- The two sets of ports agree on NUM_LEN and on the bytes of NUM_IN below it (R22). -/
def sameNumber (p q : Ports) : Prop :=
  p.numLen = q.numLen ∧ ∀ k < p.numLen.toNat, p.numIn.toList.getD k 0 = q.numIn.toList.getD k 0

/-- The two sets of ports agree on HEX_LEN and on the bytes of HEX_IN below it (R22). -/
def sameHex (p q : Ports) : Prop :=
  p.hexLen = q.hexLen ∧ ∀ k < p.hexLen.toNat, p.hexIn.toList.getD k 0 = q.hexIn.toList.getD k 0

/-- The two sets of ports agree on what command `i` reads (R21, R22, R53; CK.DEC reads A[15:0] alone, R61, R112). -/
def AgreeOn (i : Instr) (p q : Ports) : Prop :=
  match i with
  | .nkEnc => sameCountry p q ∧ sameNumber p q
  | .nkEncC => sameCountry p q ∧ sameNumber p q
  | .nkDec => p.a = q.a
  | .nkCmpc => p.a = q.a ∧ p.b = q.b
  | .nkToHex => p.a = q.a
  | .nkFromHex => sameHex p q
  | .pkEnc => sameNumber p q
  | .pkEncC => sameNumber p q
  | .ckEnc => sameCountry p q
  | .ckEncC => sameCountry p q
  | .ckDec => p.a.extractLsb' 0 16 = q.a.extractLsb' 0 16

/-- The error fields of STATUS are one of the rows of R121 (R27 to R30), and every error index lies in its operand (R30). -/
structure ErrorFieldsOk (c : Config) (st : BitVec 32) : Prop where
  errRange : (Status.err st).toNat ≤ 4
  opndNone : Status.eopnd st = 0 ↔ (Status.err st = 0 ∨ Status.err st = 1)
  lengthOpnd : Status.err st = 2 → Status.eopnd st = 2 ∨ Status.eopnd st = 3
  inputOpnd : Status.err st = 3 → Status.eopnd st = 1 ∨ Status.eopnd st = 2
  formatOpnd : Status.err st = 4 → Status.eopnd st = 3
  subOnlyFormat : Status.esub st ≠ 0 ↔ Status.err st = 4
  idxOnly : Status.eidx st ≠ 0 → Status.err st = 3 ∨ (Status.err st = 4 ∧ Status.esub st ≠ 1)
  idxCountry : Status.eopnd st = 1 → (Status.eidx st).toNat < 2
  idxNumber : Status.eopnd st = 2 → (Status.eidx st).toNat < c.numInMax
  idxHex : Status.eopnd st = 3 → (Status.eidx st).toNat < c.hexInMax

/-- The states NKCORE can be in from reset on: the parameters are ones R7 allows; the reserved bits of STATUS are 0 (R26); its error
fields are a row of R121; an error has set SERR and left no result (R25, R31); without a completed command everything is at its
reset value (R32, R36); LCMD is an illegal word exactly when ERR = 1 (R124); NUM_OUT holds NUM_OUT_LEN digits and then 0x00
(R74); HEX_OUT is all 0x00 or sixteen lowercase hex digits (R91). -/
structure Sound (s : State) : Prop where
  params : s.cfg.wf = true
  rsvLow : Status.rsvLow s.status = 0
  rsvHigh : Status.rsvHigh s.status = 0
  fields : ErrorFieldsOk s.cfg s.status
  errorSticks : Status.err s.status ≠ 0 → Status.serr s.status = 1
  errorZeroes : Status.err s.status ≠ 0 → s.results = Results.zero
  fresh : Status.cmdv s.status = 0 → s.status = 0 ∧ s.results = Results.zero
  lastCommand : Status.cmdv s.status = 1 → (Status.err s.status = 1 ↔ IllegalWord (Status.lcmd s.status))
  digits : ∀ k : Fin 15, if k.val < s.results.numOutLen.toNat then Digit s.results.numOut[k] else s.results.numOut[k] = 0
  hexText : s.results.hexOut = Results.zero.hexOut ∨ ∀ k : Fin 16, ∃ d, LowerHex s.results.hexOut[k] d

/-- RST is 0 at every one of these edges. -/
def NoReset (edges : List Pins) : Prop := ∀ pins ∈ edges, pins.rst = false

end Sys2Proof.Machine
end

