-- ==== Sys2Proof/Certificates/Slice0/Obligations.lean ====
section
/-! DEFINITION. The statements for the provers, by the numbered rules of the spec: encoding, the machine's steps, each command, the
properties the spec derives, the whole machine, and the handshake at signal level. -/

open Sys2Proof Sys2Proof.Machine

/-! ### Encoding -/

/-- R53: "These eleven 8-bit words are the only legal command words." -/
def Obligations.LegalWordsAreExactlyTheTable : Prop :=
  ∀ (w : Byte) (i : Instr), decode w = .ok i ↔ w = cmdWord i

/-- R54, R55, R124: the words outside the table are illegal, for one of three reasons. -/
def Obligations.IllegalWordsAreTheReservedOnes : Prop :=
  ∀ w : Byte, (∃ e, decode w = .error e) ↔ IllegalWord w

/-- Encoder and decoder are inverse on commands and on words, and the encoder's words are the table's: derived from R50, R53, R54. -/
def Obligations.EncodeAndDecodeAgree : Prop :=
  (∀ i : Instr, (cmdFieldsOf i).wf = true ∧ encode i = cmdWord i ∧ decode (encode i) = .ok i) ∧
  (∀ (w : Byte) (i : Instr), decode w = .ok i → encode i = w) ∧
  (∀ f : CmdFields, fieldsOf (packFields f) = f ∧ (f.wf = true ↔ ∃ i, decode (packFields f) = .ok i)) ∧
  (∀ w : Byte, packFields (fieldsOf w) = w)

/-- R53, a few words written out by bits: RSV, CHK, OP. -/
def Obligations.WordsFromTheEncodingDecode : Prop :=
  decode 0b00000001#8 = .ok .nkEnc ∧ decode 0b00010001#8 = .ok .nkEncC ∧ decode 0b00000101#8 = .ok .nkFromHex ∧
  decode 0b00010110#8 = .ok .pkEncC ∧ decode 0b00001000#8 = .ok .ckDec ∧
  decode 0b00000000#8 = .error .reservedOp ∧ decode 0b00100001#8 = .error .reservedBits ∧
  decode 0b00010010#8 = .error .checkNotAllowed

/-! ### Steps -/

/-- R54, R149: when the host's next action presents a legal word, the step accepts it and runs the decoded command. -/
def Obligations.StepRunsTheDecodedCommand : Prop :=
  ∀ (s : State) (p : Ports) (rest : List HostAction) (i : Instr),
    s.phase = .idle → s.requests = .command p :: rest → decode p.cmd = .ok i →
    step s = exec i (accept p { s with requests := rest })

/-- R146, R147: a command in flight completes from its sampled ports. That an atomic step completes it at once, whatever wait remains and
before any host action, is the model's choice (log entry 3): R35 and R149 give the atomic step no BUSY state. -/
def Obligations.StepCompletesTheCommandInFlight : Prop :=
  ∀ (s : State) (n : Nat) (i : Instr), s.phase = .busy n → decode s.sampled.cmd = .ok i → step s = exec i s

/-- A placed command word is what the next step runs, on operand ports held at their last sampled values (log entries 3 and 5). -/
def Obligations.StepRunsThePlacedWord : Prop :=
  ∀ (s : State) (w : Nat) (i : Instr), decodeTableWord 8 w = some i →
    step (s.withFetchWord 8 w) = exec i (accept { s.sampled with cmd := BitVec.ofNat 8 w } { s with phase := .idle })

/-- R124, R54, R129: an illegal word raises ILLEGAL_CMD before any operand is read, so with any operands. -/
def Obligations.IllegalWordRaisesIllegalCmd : Prop :=
  ∀ (s : State) (p : Ports) (rest : List HostAction),
    s.phase = .idle → s.requests = .command p :: rest → IllegalWord p.cmd →
    ∃ t, step s = .next t ∧ RaisedWith (accept p { s with requests := rest }) t 1 0 0 0

/-- R36: the state after reset, with the parameters at the defaults of R7. -/
def Obligations.ResetStateIsAllZero : Prop :=
  State.reset.results.res = 0x0000_0000_0000_0000#64 ∧
  State.reset.results.ctryOut.toList = [0x00, 0x00] ∧
  State.reset.results.numOut.toList = List.replicate 15 0x00 ∧
  State.reset.results.numOutLen = 0 ∧
  State.reset.results.hexOut.toList = List.replicate 16 0x00 ∧
  StatusIs State.reset.status 0 0 0 0 0 0 0x00 ∧ State.reset.status = 0x0000_0000#32 ∧
  State.reset.phase = .idle

/-- R141: a reset step gives every piece of state its reset value, from any idle state (R142, log entry 7: also one before the first
reset). DONE = 0 is log entry 6; the host's actions are log entry 3. -/
def Obligations.ResetStepGivesTheResetState : Prop :=
  ∀ (s : State) (rest : List HostAction), s.phase = .idle → s.requests = .reset :: rest →
    ∃ t, step s = .next t ∧ t.results = State.reset.results ∧ t.status = 0x0000_0000#32 ∧ t.phase = .idle ∧
      t.done = false ∧ t.cfg = s.cfg ∧ t.requests = rest

/-- R140 at transaction level: RST while a command is in flight abandons it: no result, no STATUS, no DONE, whatever the command. The
host's action `abort` is the model's (log entry 3). -/
def Obligations.ResetAbandonsTheCommandInFlight : Prop :=
  ∀ (s : State) (p : Ports) (rest : List HostAction), s.phase = .idle → s.requests = .abort p :: rest →
    step s = step { s with requests := .reset :: rest } ∧
    ∃ t, step s = .next t ∧ t.results = State.reset.results ∧ t.status = State.reset.status ∧ t.phase = .idle ∧ t.done = false

/-- R137, R23: a step in which the host presents nothing holds the result registers and STATUS. The host's action `idle` is the model's
(log entry 3), DONE falls as R144 says. -/
def Obligations.IdleStepHoldsTheRegisters : Prop :=
  ∀ (s : State) (rest : List HostAction), s.phase = .idle → s.requests = .idle :: rest →
    ∃ t, step s = .next t ∧ t.results = s.results ∧ t.status = s.status ∧ t.phase = .idle ∧ t.done = false ∧
      t.cfg = s.cfg ∧ t.requests = rest

/-- 93 U14, log entry 4 (the coming actions: log entry 3): a run whose host never presents its next command has no further step; and that is the only stop there is. -/
def Obligations.OnlyASilentHostStopsTheRun : Prop :=
  ∀ s : State, (step s = .fault .hostPresentsNothing ↔ s.phase = .idle ∧ s.requests = []) ∧
    (¬(s.phase = .idle ∧ s.requests = []) → ∃ t, step s = .next t)

/-! ### NumKey -/

/-- R72, with R70 and R71 as exact integers wrapped once: NK.ENC completes with RES by the formula when NUM_LEN ≤ NUM_IN_MAX, and raises
LENGTH_RANGE otherwise; no byte ever makes it fail. -/
def Obligations.NkEncResult : Prop :=
  decode 0x01#8 = .ok .nkEnc ∧ ∀ s : State,
    (s.sampled.numLen.toNat ≤ s.cfg.numInMax →
      ∃ t, exec .nkEnc s = .next t ∧ CompletedWith s t { Results.zero with res := encodeFormula s }) ∧
    (s.cfg.numInMax < s.sampled.numLen.toNat → ∃ t, exec .nkEnc s = .next t ∧ RaisedWith s t 2 2 0 0)

/-- R57, R72: in domain and up to 15 digits, NK.ENC's RES is the plain sum of its four fields, and each field reads back: nothing
spills. -/
def Obligations.NkEncFieldsInDomain : Prop :=
  ∀ s : State, s.sampled.numLen.toNat ≤ 15 → 15 ≤ s.cfg.numInMax → CountryOk s → NumberOk s →
    ∃ t, exec .nkEnc s = .next t ∧ Status.err t.status = 0 ∧
      t.results.res.toNat =
        (s.sampled.ctryIn[0].toNat - 64) * 2 ^ 59 + (s.sampled.ctryIn[1].toNat - 64) * 2 ^ 54 +
          decimalNat (numSlice s 0 s.sampled.numLen.toNat) * 2 ^ 4 + s.sampled.numLen.toNat ∧
      (nkL1 t.results.res).toNat = s.sampled.ctryIn[0].toNat - 64 ∧
      (nkL2 t.results.res).toNat = s.sampled.ctryIn[1].toNat - 64 ∧
      (nkNum t.results.res).toNat = decimalNat (numSlice s 0 s.sampled.numLen.toNat) ∧
      (nkLen t.results.res).toNat = s.sampled.numLen.toNat

/-- R80: on any bytes, bits [63:54] of RES are the two wrapped letters ORed with bits [59:50] of the accumulated value, NUM is the
accumulated value's bits [49:0], and LEN is the length field; the accumulated value's bits [63:60] are lost. -/
def Obligations.NkEncSpillOutOfDomain : Prop :=
  ∀ s : State, s.sampled.numLen.toNat ≤ s.cfg.numInMax →
    ∃ t, exec .nkEnc s = .next t ∧ Status.err t.status = 0 ∧
      nkCc t.results.res =
        (BitVec.ofInt 10 ((byteInt s.cfg.byteExt s.sampled.ctryIn[0] - 64) * 2 ^ 5)
          ||| BitVec.ofInt 10 (byteInt s.cfg.byteExt s.sampled.ctryIn[1] - 64)
          ||| BitVec.ofInt 10 (keptInt s / 2 ^ 50)) ∧
      nkNum t.results.res = BitVec.ofInt 50 (keptInt s) ∧
      (nkLen t.results.res).toNat = keptLen s

/-- R73, R126, R129: NK.ENC.C checks the length, then the country in order, then every presented number byte, lowest index first; when
all pass it computes exactly as NK.ENC. -/
def Obligations.NkEncCheckedResult : Prop :=
  decode 0x11#8 = .ok .nkEncC ∧ ∀ s : State,
    (s.cfg.numInMax < s.sampled.numLen.toNat → ∃ t, exec .nkEncC s = .next t ∧ RaisedWith s t 2 2 0 0) ∧
    (s.sampled.numLen.toNat ≤ s.cfg.numInMax →
      (¬ Upper s.sampled.ctryIn[0] → ∃ t, exec .nkEncC s = .next t ∧ RaisedWith s t 3 1 0 0) ∧
      (Upper s.sampled.ctryIn[0] → ¬ Upper s.sampled.ctryIn[1] →
        ∃ t, exec .nkEncC s = .next t ∧ RaisedWith s t 3 1 1 0) ∧
      (CountryOk s → ∀ k < s.sampled.numLen.toNat, (∀ j < k, Digit (numAt s j)) → ¬ Digit (numAt s k) →
        ∃ t, exec .nkEncC s = .next t ∧ RaisedWith s t 3 2 (BitVec.ofNat 8 k) 0) ∧
      (CountryOk s → NumberOk s →
        ∃ t, exec .nkEncC s = .next t ∧ CompletedWith s t { Results.zero with res := encodeFormula s } ∧
          exec .nkEnc s = .next t))

/-- R74: NK.DEC splits A into its fields, adds 64 to the letters and writes NUM_LEN's worth of decimal digits of NUM, the last one
least significant, then 0x00. -/
def Obligations.NkDecResult : Prop :=
  decode 0x02#8 = .ok .nkDec ∧ ∀ s : State, ∃ t r, exec .nkDec s = .next t ∧ CompletedWith s t r ∧
    r.ctryOut[0].toNat = s.sampled.a.toNat / 2 ^ 59 + 64 ∧
    r.ctryOut[1].toNat = s.sampled.a.toNat / 2 ^ 54 % 32 + 64 ∧
    r.numOutLen.toNat = s.sampled.a.toNat % 16 ∧
    (∀ k : Fin 15, r.numOut[k].toNat =
      if k.val < s.sampled.a.toNat % 16
      then 0x30 + s.sampled.a.toNat / 16 % 2 ^ 50 / 10 ^ (s.sampled.a.toNat % 16 - 1 - k.val) % 10
      else 0x00) ∧
    r.res = 0 ∧ r.hexOut = Results.zero.hexOut

/-- R75: NK.CMPC compares bits [63:54] of A and B as unsigned numbers; RES is −1, 0 or +1 as a signed value. -/
def Obligations.NkCmpcResult : Prop :=
  decode 0x03#8 = .ok .nkCmpc ∧ ∀ s : State, ∃ t r, exec .nkCmpc s = .next t ∧ CompletedWith s t { Results.zero with res := r } ∧
    (s.sampled.a.toNat / 2 ^ 54 < s.sampled.b.toNat / 2 ^ 54 → r = 0xFFFF_FFFF_FFFF_FFFF#64) ∧
    (s.sampled.a.toNat / 2 ^ 54 = s.sampled.b.toNat / 2 ^ 54 → r = 0#64) ∧
    (s.sampled.b.toNat / 2 ^ 54 < s.sampled.a.toNat / 2 ^ 54 → r = 0x0000_0000_0000_0001#64)

/-- R91 (with R90): NK.TOHEX writes sixteen lowercase hex digits, the most significant nibble of A first. -/
def Obligations.NkToHexResult : Prop :=
  decode 0x04#8 = .ok .nkToHex ∧ ∀ s : State, ∃ t r, exec .nkToHex s = .next t ∧ CompletedWith s t { Results.zero with hexOut := r } ∧
    ∀ k : Fin 16, LowerHex r[k] (s.sampled.a.toNat / 16 ^ (15 - k.val) % 16)

/-- R92 (with R90): NK.FROMHEX's result and its four errors, each where R92 raises it. -/
def Obligations.NkFromHexResult : Prop :=
  decode 0x05#8 = .ok .nkFromHex ∧ ∀ s : State,
    (s.cfg.hexInMax < s.sampled.hexLen.toNat → ∃ t, exec .nkFromHex s = .next t ∧ RaisedWith s t 2 3 0 0) ∧
    (s.sampled.hexLen.toNat ≤ s.cfg.hexInMax →
      (s.sampled.hexLen.toNat = 0 → ∃ t, exec .nkFromHex s = .next t ∧ RaisedWith s t 4 3 0 1) ∧
      (∀ k < s.sampled.hexLen.toNat, (∀ j < k, ¬ NotHex (hexAt s j)) → NotHex (hexAt s k) →
        ∃ t, exec .nkFromHex s = .next t ∧ RaisedWith s t 4 3 (BitVec.ofNat 8 k) 2) ∧
      (∀ ds, HexDigits s s.sampled.hexLen.toNat ds →
        (∀ k < s.sampled.hexLen.toNat, hexNat (ds.take k) < 2 ^ 64 → 2 ^ 64 ≤ hexNat (ds.take (k + 1)) →
          ∃ t, exec .nkFromHex s = .next t ∧ RaisedWith s t 4 3 (BitVec.ofNat 8 k) 3) ∧
        (0 < s.sampled.hexLen.toNat → hexNat ds < 2 ^ 64 →
          ∃ t, exec .nkFromHex s = .next t ∧ CompletedWith s t { Results.zero with res := BitVec.ofNat 64 (hexNat ds) })))

/-- R92, corner cases: up to 16 hex digits never overflow, and are accepted when there is at least one. -/
def Obligations.ShortHexNeverOverflows : Prop :=
  ∀ (s : State) (ds : List Nat), 0 < s.sampled.hexLen.toNat → s.sampled.hexLen.toNat ≤ 16 →
    s.sampled.hexLen.toNat ≤ s.cfg.hexInMax → HexDigits s s.sampled.hexLen.toNat ds →
    ∃ t, exec .nkFromHex s = .next t ∧ Status.err t.status = 0 ∧ t.results.res.toNat = hexNat ds

/-! ### PrefixKey -/

/-- R100: PK.ENC weights the first 15 bytes as digits of a 15-digit number, wrapped once; LENGTH_RANGE is its only error. -/
def Obligations.PkEncResult : Prop :=
  decode 0x06#8 = .ok .pkEnc ∧ ∀ s : State,
    (s.sampled.numLen.toNat ≤ s.cfg.numInMax →
      ∃ t, exec .pkEnc s = .next t ∧ CompletedWith s t { Results.zero with res := prefixFormula s }) ∧
    (s.cfg.numInMax < s.sampled.numLen.toNat → ∃ t, exec .pkEnc s = .next t ∧ RaisedWith s t 2 2 0 0)

/-- R102: for digit bytes RES is below 10^15 and is the first digits followed by zero digits. -/
def Obligations.PkEncRange : Prop :=
  ∀ s : State, s.sampled.numLen.toNat ≤ s.cfg.numInMax → NumberOk s →
    ∃ t, exec .pkEnc s = .next t ∧ t.results.res.toNat < 10 ^ 15 ∧
      t.results.res.toNat =
        decimalNat (numSlice s 0 (min s.sampled.numLen.toNat 15) ++ List.replicate (15 - min s.sampled.numLen.toNat 15) 0x30)

/-- R101, R126: PK.ENC.C checks the length and then every presented byte, lowest index first; otherwise it computes as PK.ENC. -/
def Obligations.PkEncCheckedResult : Prop :=
  decode 0x16#8 = .ok .pkEncC ∧ ∀ s : State,
    (s.cfg.numInMax < s.sampled.numLen.toNat → ∃ t, exec .pkEncC s = .next t ∧ RaisedWith s t 2 2 0 0) ∧
    (s.sampled.numLen.toNat ≤ s.cfg.numInMax →
      (∀ k < s.sampled.numLen.toNat, (∀ j < k, Digit (numAt s j)) → ¬ Digit (numAt s k) →
        ∃ t, exec .pkEncC s = .next t ∧ RaisedWith s t 3 2 (BitVec.ofNat 8 k) 0) ∧
      (NumberOk s →
        ∃ t, exec .pkEncC s = .next t ∧ CompletedWith s t { Results.zero with res := prefixFormula s } ∧
          exec .pkEnc s = .next t))

/-- R100, corner cases: bytes past the first 15 do not matter, and a trailing zero digit is not significant. -/
def Obligations.PkEncForgetsTheRest : Prop :=
  ∀ s u : State, u.cfg = s.cfg → s.sampled.numLen.toNat ≤ s.cfg.numInMax → u.sampled.numLen.toNat ≤ s.cfg.numInMax →
    (∀ k < 15, (if k < s.sampled.numLen.toNat then numAt s k else 0x30) =
      (if k < u.sampled.numLen.toNat then numAt u k else 0x30)) →
    ∃ t v, exec .pkEnc s = .next t ∧ exec .pkEnc u = .next v ∧ t.results = v.results

/-! ### CountryKey -/

/-- R110: CK.ENC packs the two bytes verbatim, but for a second byte whose sign bits cover the first under SEXT; it never fails. -/
def Obligations.CkEncResult : Prop :=
  decode 0x07#8 = .ok .ckEnc ∧ ∀ s : State, ∃ t r, exec .ckEnc s = .next t ∧ CompletedWith s t { Results.zero with res := r } ∧
    r.toNat = countryKeyFormula s

/-- R111, R126: CK.ENC.C raises INVALID_INPUT at the lower offending index; otherwise it computes as CK.ENC. -/
def Obligations.CkEncCheckedResult : Prop :=
  decode 0x17#8 = .ok .ckEncC ∧ ∀ s : State,
    (¬ Upper s.sampled.ctryIn[0] → ∃ t, exec .ckEncC s = .next t ∧ RaisedWith s t 3 1 0 0) ∧
    (Upper s.sampled.ctryIn[0] → ¬ Upper s.sampled.ctryIn[1] → ∃ t, exec .ckEncC s = .next t ∧ RaisedWith s t 3 1 1 0) ∧
    (CountryOk s →
      ∃ t r, exec .ckEncC s = .next t ∧ CompletedWith s t { Results.zero with res := r } ∧
        r.toNat = s.sampled.ctryIn[0].toNat * 256 + s.sampled.ctryIn[1].toNat ∧ exec .ckEnc s = .next t)

/-- R112: CK.DEC gives back bits [15:8] and [7:0] of A; A[63:16] is ignored. -/
def Obligations.CkDecResult : Prop :=
  decode 0x08#8 = .ok .ckDec ∧ ∀ s : State, ∃ t r, exec .ckDec s = .next t ∧ CompletedWith s t { Results.zero with ctryOut := r } ∧
    r[0].toNat = s.sampled.a.toNat / 256 % 256 ∧ r[1].toNat = s.sampled.a.toNat % 256

/-! ### Properties the rules give -/

/-- R76: NK.DEC of the RES of NK.ENC, or of NK.ENC.C, gives back the country and the number, leading zeros included. -/
def Obligations.NumKeyRoundTrip : Prop :=
  ∀ (s u : State) (i : Instr), (i = .nkEnc ∨ i = .nkEncC) →
    s.sampled.numLen.toNat ≤ 15 → 15 ≤ s.cfg.numInMax → CountryOk s → NumberOk s →
    ∃ t, exec i s = .next t ∧
      (u.sampled.a = t.results.res →
        ∃ v, exec .nkDec u = .next v ∧ v.results.ctryOut = s.sampled.ctryIn ∧
          v.results.numOutLen.toNat = s.sampled.numLen.toNat ∧
          ∀ k : Fin 15, k.val < s.sampled.numLen.toNat → v.results.numOut[k] = numAt s k.val)

/-- R77: a number of more than 15 bytes decodes to the empty number, while NUM holds the value of its last 15 bytes: the decimal value
when they are digits, and R71's value, cut to 50 bits, on any bytes. -/
def Obligations.LongNumbersAreLossy : Prop :=
  ∀ s u : State, 15 < s.sampled.numLen.toNat → s.sampled.numLen.toNat ≤ s.cfg.numInMax →
    ∃ t, exec .nkEnc s = .next t ∧
      nkNum t.results.res = BitVec.ofInt 50 (decimalInt s.cfg.byteExt (numSlice s (s.sampled.numLen.toNat - 15) 15)) ∧
      (NumberOk s →
        (nkNum t.results.res).toNat = decimalNat (numSlice s (s.sampled.numLen.toNat - 15) 15)) ∧
      (u.sampled.a = t.results.res →
        ∃ v, exec .nkDec u = .next v ∧ v.results.numOutLen = 0 ∧ v.results.numOut = Results.zero.numOut ∧
          (CountryOk s → NumberOk s → v.results.ctryOut = s.sampled.ctryIn))

/-- R78: a length field of 0 decodes to the empty number whatever NUM holds, and an empty number has the same key as an overflowed
one whose last 15 digits are zeros. -/
def Obligations.ZeroLengthIsAmbiguous : Prop :=
  (∀ s : State, s.sampled.a.toNat % 16 = 0 →
    ∃ t, exec .nkDec s = .next t ∧ t.results.numOutLen = 0 ∧ t.results.numOut = Results.zero.numOut) ∧
  (∀ s u : State, u.cfg = s.cfg → u.sampled.ctryIn = s.sampled.ctryIn → s.sampled.numLen.toNat = 0 →
    15 < u.sampled.numLen.toNat → u.sampled.numLen.toNat ≤ u.cfg.numInMax →
    (∀ k < 15, numAt u (u.sampled.numLen.toNat - 15 + k) = 0x30) →
    ∃ t v, exec .nkEnc s = .next t ∧ exec .nkEnc u = .next v ∧ t.results = v.results)

/-- R79, with its "any numbers" read as numbers in domain (DEDUCED, log entry 10, because R80 lets other bytes reach the letter fields):
for in-domain countries NK.CMPC of two NumKeys orders the countries by their letters. -/
def Obligations.CompareFollowsTheLetters : Prop :=
  ∀ p q c : State,
    CountryOk p → NumberOk p → p.sampled.numLen.toNat ≤ p.cfg.numInMax →
    CountryOk q → NumberOk q → q.sampled.numLen.toNat ≤ q.cfg.numInMax →
    ∃ t u, exec .nkEnc p = .next t ∧ exec .nkEnc q = .next u ∧
      (c.sampled.a = t.results.res → c.sampled.b = u.results.res →
        ∃ v, exec .nkCmpc c = .next v ∧
          (v.results.res.toInt = -1 ↔
            p.sampled.ctryIn[0].toNat < q.sampled.ctryIn[0].toNat ∨
              (p.sampled.ctryIn[0] = q.sampled.ctryIn[0] ∧ p.sampled.ctryIn[1].toNat < q.sampled.ctryIn[1].toNat)) ∧
          (v.results.res.toInt = 0 ↔ p.sampled.ctryIn = q.sampled.ctryIn) ∧
          (v.results.res.toInt = 1 ↔
            q.sampled.ctryIn[0].toNat < p.sampled.ctryIn[0].toNat ∨
              (p.sampled.ctryIn[0] = q.sampled.ctryIn[0] ∧ q.sampled.ctryIn[1].toNat < p.sampled.ctryIn[1].toNat)))

/-- R93: parsing the sixteen bytes NK.TOHEX writes for a value gives the value back, for every value. -/
def Obligations.HexRoundTrip : Prop :=
  ∀ s u : State, 16 ≤ u.cfg.hexInMax →
    ∃ t, exec .nkToHex s = .next t ∧
      (u.sampled.hexLen = 16 → (∀ k : Fin 16, hexAt u k.val = t.results.hexOut[k]) →
        ∃ v, exec .nkFromHex u = .next v ∧ v.results.res = s.sampled.a ∧ Status.err v.status = 0)

/-- R113: CK.DEC of the low 16 bits of CK.ENC's RES gives back the two bytes, always under ZEXT, and under SEXT when the second byte is
below 0x80. -/
def Obligations.CountryKeyRoundTrip : Prop :=
  ∀ s u : State, (s.cfg.byteExt = .zext ∨ s.sampled.ctryIn[1].toNat < 0x80) →
    ∃ t, exec .ckEnc s = .next t ∧
      (u.sampled.a.extractLsb' 0 16 = t.results.res.extractLsb' 0 16 →
        ∃ v, exec .ckDec u = .next v ∧ v.results.ctryOut = s.sampled.ctryIn)

/-- R10, R73, R101, R111: the checked commands do not depend on BYTE_EXT, whatever their operands. -/
def Obligations.CheckedCommandsIgnoreByteExt : Prop :=
  ∀ (s u : State) (i : Instr), (i = .nkEncC ∨ i = .pkEncC ∨ i = .ckEncC) →
    u = { s with cfg := { s.cfg with byteExt := .sext } } → s.cfg.byteExt = .zext →
    ∃ t v, exec i s = .next t ∧ exec i u = .next v ∧ t.results = v.results ∧ t.status = v.status

/-- R152: for an in-domain country and number, bit 63 of the NumKey is 1 exactly from 'P' onward. -/
def Obligations.TopBitIsSetFromP : Prop :=
  ∀ s : State, s.sampled.numLen.toNat ≤ s.cfg.numInMax → CountryOk s → NumberOk s →
    ∃ t, exec .nkEnc s = .next t ∧ (t.results.res.msb = true ↔ 0x50 ≤ s.sampled.ctryIn[0].toNat)

/-- R43: two CountryKeys compare, as unsigned numbers, by their first letters before their second, under ZEXT on any bytes. -/
def Obligations.CountryKeysOrderByLetters : Prop :=
  ∀ s u : State, s.cfg.byteExt = .zext → u.cfg.byteExt = .zext →
    ∃ t v, exec .ckEnc s = .next t ∧ exec .ckEnc u = .next v ∧
      (t.results.res.toNat < v.results.res.toNat ↔
        s.sampled.ctryIn[0].toNat < u.sampled.ctryIn[0].toNat ∨
          (s.sampled.ctryIn[0] = u.sampled.ctryIn[0] ∧ s.sampled.ctryIn[1].toNat < u.sampled.ctryIn[1].toNat))

/-! ### The whole machine -/

/-- R33, R31, R32: what the completion of any command word, legal or not, writes to STATUS. -/
def Obligations.CompletionWritesStatus : Prop :=
  ∀ s : State, ∃ t, runSampled s = .next t ∧
    Status.cmdv t.status = 1 ∧ Status.lcmd t.status = s.sampled.cmd ∧
    Status.rsvLow t.status = 0 ∧ Status.rsvHigh t.status = 0 ∧
    Status.serr t.status = (if Status.err t.status ≠ 0 then 1 else Status.serr s.status) ∧
    (Status.err t.status = 0 → Status.eopnd t.status = 0 ∧ Status.esub t.status = 0 ∧ Status.eidx t.status = 0)

/-- R121, R27 to R30: STATUS after any command word records a row of the table of errors, for parameters R7 allows. -/
def Obligations.ErrorFieldsAreARowOfTheTable : Prop :=
  ∀ s : State, s.cfg.wf = true → ∃ t, runSampled s = .next t ∧ ErrorFieldsOk s.cfg t.status

/-- R121: which commands can raise which error. -/
def Obligations.EachErrorHasItsCommands : Prop :=
  ∀ (i : Instr) (s : State), ∃ t, exec i s = .next t ∧
    Status.err t.status ≠ 1 ∧
    (Status.err t.status = 2 → i ∈ [Instr.nkEnc, .nkEncC, .pkEnc, .pkEncC, .nkFromHex]) ∧
    (Status.err t.status = 3 → i ∈ [Instr.nkEncC, .pkEncC, .ckEncC]) ∧
    (Status.err t.status = 4 → i = .nkFromHex)

/-- R25: a command word that ends with an error writes zero to every result register, so no partial result is left, and writes
STATUS by R33. -/
def Obligations.ErrorsLeaveNoResult : Prop :=
  ∀ s : State, ∃ t, runSampled s = .next t ∧ (Status.err t.status ≠ 0 →
    RaisedWith s t (Status.err t.status) (Status.eopnd t.status) (Status.eidx t.status) (Status.esub t.status) ∧
    t.results.res = 0 ∧ (∀ k : Fin 2, t.results.ctryOut[k] = 0) ∧ (∀ k : Fin 15, t.results.numOut[k] = 0) ∧
    t.results.numOutLen = 0 ∧ (∀ k : Fin 16, t.results.hexOut[k] = 0))

/-- R24, the frame of every command (`cfg` is log entry 1, `requests` log entry 3): a result register its row of R23 does not list receives zero, and the parameters, the sampled
ports and the host's coming actions are unchanged. -/
def Obligations.CommandFrame : Prop :=
  ∀ (i : Instr) (s t : State), exec i s = .next t →
    (writesRes i = false → t.results.res = 0) ∧
    (writesCtryOut i = false → t.results.ctryOut = Results.zero.ctryOut) ∧
    (writesNumOut i = false → t.results.numOut = Results.zero.numOut ∧ t.results.numOutLen = 0) ∧
    (writesHexOut i = false → t.results.hexOut = Results.zero.hexOut) ∧
    t.cfg = s.cfg ∧ t.sampled = s.sampled ∧ t.requests = s.requests

/-- R22: a command depends on no port, and no byte of a port, that it does not read. -/
def Obligations.UnreadPortsDoNotMatter : Prop :=
  ∀ (i : Instr) (s u : State), s.cfg = u.cfg → AgreeOn i s.sampled u.sampled →
    ∃ t v, exec i s = .next t ∧ exec i u = .next v ∧ t.results = v.results ∧
      Status.err t.status = Status.err v.status ∧ Status.eopnd t.status = Status.eopnd v.status ∧
      Status.esub t.status = Status.esub v.status ∧ Status.eidx t.status = Status.eidx v.status

/-- R13, R35: no command reads a result register or STATUS: after equal ports every register agrees, but for SERR, whatever the
states before. -/
def Obligations.ResultsDependOnThePortsAlone : Prop :=
  ∀ s u : State, s.cfg = u.cfg → s.sampled = u.sampled →
    ∃ t v, runSampled s = .next t ∧ runSampled u = .next v ∧ t.results = v.results ∧
      Status.err t.status = Status.err v.status ∧ Status.rsvLow t.status = Status.rsvLow v.status ∧
      Status.eopnd t.status = Status.eopnd v.status ∧ Status.esub t.status = Status.esub v.status ∧
      Status.eidx t.status = Status.eidx v.status ∧ Status.cmdv t.status = Status.cmdv v.status ∧
      Status.rsvHigh t.status = Status.rsvHigh v.status ∧ Status.lcmd t.status = Status.lcmd v.status

/-- R46: issuing the same command with the same operands twice gives the same result registers and the same STATUS, except SERR and
CMDV against the first time's predecessor: the second completion changes nothing. -/
def Obligations.CommandsAreIdempotent : Prop :=
  ∀ s : State, ∃ t u, runSampled s = .next t ∧ runSampled (accept s.sampled t) = .next u ∧
    u.results = t.results ∧ u.status = t.status

/-- The invariant `Sound` holds at reset. -/
def Obligations.ResetIsSound : Prop := Sound State.reset

/-- Every step keeps `Sound`: R26 to R33 (STATUS), R7 and R34 (parameters), R25 (no partial result), R74 and R91 (the text registers). -/
def Obligations.StepKeepsSound : Prop := ∀ s t : State, Sound s → step s = .next t → Sound t

/-- R31, R32, R141: SERR and CMDV, once set, stay set through every step but a reset of the machine. The host's coming actions are the
model's own field (log entry 3). -/
def Obligations.OnlyResetClearsTheStickyBits : Prop :=
  ∀ s t : State, step s = .next t →
    (Status.serr s.status = 1 → Status.serr t.status = 1) ∧ (Status.cmdv s.status = 1 → Status.cmdv t.status = 1) ∨
      (s.phase = .idle ∧ ∃ rest, s.requests = .reset :: rest ∨ ∃ p, s.requests = .abort p :: rest)

/-- R34: no step changes the parameters, and a step takes at most the host's next action from its coming ones. -/
def Obligations.StepKeepsTheParameters : Prop :=
  ∀ s t : State, step s = .next t → t.cfg = s.cfg ∧ t.phase = .idle ∧
    (t.requests = s.requests ∨ ∃ act, s.requests = act :: t.requests)

/-! ### The handshake at signal level -/

/-- R140: at an edge with RST = 1 CMD_READY is 0, so no command is accepted, and every register takes its reset value, in any phase; a
command in flight is abandoned and raises no DONE. -/
def Obligations.ResetEdgeResets : Prop :=
  ∀ (s : State) (pins : Pins), pins.rst = true →
    cmdReady pins.rst s = false ∧
    ∃ t, clockEdge pins s = .next t ∧ t.results = State.reset.results ∧ t.status = State.reset.status ∧
      t.phase = .idle ∧ t.cfg = s.cfg ∧ ∀ n, s.phase = .busy n → t.done = false

/-- R145, R146: a command is accepted exactly when CMD_VALID and CMD_READY are 1; the ports are sampled, the registers keep their
values, DONE is 0 (R144), and the completing edge is LATENCY edges away (R147). That LATENCY is a function of the accepted ports alone is
the model's choice (log entry 2). -/
def Obligations.AcceptEdgeSamplesThePorts : Prop :=
  ∀ (s : State) (pins : Pins), pins.rst = false → s.phase = .idle →
    cmdReady pins.rst s = true ∧
    ∃ t, clockEdge pins s = .next t ∧ t.results = s.results ∧ t.status = s.status ∧ t.done = false ∧
      (pins.cmdValid = true → t.sampled = pins.ports ∧ ∃ n, t.phase = .busy n ∧ n + 1 = Config.latency pins.ports) ∧
      (pins.cmdValid = false → t.sampled = s.sampled ∧ t.phase = .idle)

/-- R147, R148: while BUSY, CMD_READY is 0, no command is accepted, the registers keep the previous values until the completing edge,
and the pins, RST apart, have no effect. -/
def Obligations.BusyEdgeIgnoresThePins : Prop :=
  ∀ (s : State) (n : Nat) (pins pins' : Pins), pins.rst = false → pins'.rst = false → s.phase = .busy n →
    cmdReady pins.rst s = false ∧ clockEdge pins s = clockEdge pins' s ∧
    ∃ t, clockEdge pins s = .next t ∧ t.sampled = s.sampled ∧
      (0 < n → t.results = s.results ∧ t.status = s.status ∧ t.phase = .busy (n - 1) ∧ t.done = false) ∧
      (n = 0 → t.phase = .idle ∧ t.done = true)

/-- R144, R147: DONE is 1 for exactly one cycle: at the edge after a completion it falls, whatever the pins. -/
def Obligations.DoneLastsOneCycle : Prop :=
  ∀ (s : State) (first second : Pins), s.phase = .busy 0 → first.rst = false →
    ∃ t u, clockEdge first s = .next t ∧ t.done = true ∧ clockEdge second t = .next u ∧ u.done = false

/-- R149, with LATENCY free (log entry 2): an accepted command, run edge by edge through LATENCY edges without RST, ends in exactly the state of the one atomic step,
whatever the pins do after the accept. -/
def Obligations.HandshakeRefinesTheAtomicStep : Prop :=
  ∀ (s : State) (first : Pins) (later : List Pins) (rest : List HostAction),
    s.phase = .idle → first.rst = false → first.cmdValid = true →
    NoReset later → later.length = Config.latency first.ports →
    ∃ t, runEdges (first :: later) { s with requests := rest } = .next t ∧
      step { s with requests := .command first.ports :: rest } = .next t

/-- R140: RST before the completing edge abandons the command, which ends in the state of the atomic step for the host's action `abort`
(log entry 3). -/
def Obligations.ResetInFlightRefinesAbort : Prop :=
  ∀ (s : State) (first last : Pins) (later : List Pins) (rest : List HostAction),
    s.phase = .idle → first.rst = false → first.cmdValid = true → last.rst = true →
    NoReset later → later.length < Config.latency first.ports →
    ∃ t, runEdges (first :: (later ++ [last])) { s with requests := rest } = .next t ∧
      step { s with requests := .abort first.ports :: rest } = .next t

/-- Every clock edge keeps `Sound`, from any phase: R26 to R33, R140, R147. -/
def Obligations.ClockEdgeKeepsSound : Prop :=
  ∀ (s t : State) (pins : Pins), Sound s → clockEdge pins s = .next t → Sound t
end

