-- ==== Sys2Proof/Laws/Decode.lean ====
section
/-! SUPPORT. The words of the table decode to their commands, and each command's fields are well-formed. -/

namespace Sys2Proof

@[simp] theorem encode_nkEnc : encode .nkEnc = 0x01 := rfl
@[simp] theorem encode_nkEncC : encode .nkEncC = 0x11 := rfl
@[simp] theorem encode_nkDec : encode .nkDec = 0x02 := rfl
@[simp] theorem encode_nkCmpc : encode .nkCmpc = 0x03 := rfl
@[simp] theorem encode_nkToHex : encode .nkToHex = 0x04 := rfl
@[simp] theorem encode_nkFromHex : encode .nkFromHex = 0x05 := rfl
@[simp] theorem encode_pkEnc : encode .pkEnc = 0x06 := rfl
@[simp] theorem encode_pkEncC : encode .pkEncC = 0x16 := rfl
@[simp] theorem encode_ckEnc : encode .ckEnc = 0x07 := rfl
@[simp] theorem encode_ckEncC : encode .ckEncC = 0x17 := rfl
@[simp] theorem encode_ckDec : encode .ckDec = 0x08 := rfl

theorem decode_encode_nkEnc : decode (encode .nkEnc) = .ok .nkEnc := rfl
theorem decode_encode_nkEncC : decode (encode .nkEncC) = .ok .nkEncC := rfl
theorem decode_encode_nkDec : decode (encode .nkDec) = .ok .nkDec := rfl
theorem decode_encode_nkCmpc : decode (encode .nkCmpc) = .ok .nkCmpc := rfl
theorem decode_encode_nkToHex : decode (encode .nkToHex) = .ok .nkToHex := rfl
theorem decode_encode_nkFromHex : decode (encode .nkFromHex) = .ok .nkFromHex := rfl
theorem decode_encode_pkEnc : decode (encode .pkEnc) = .ok .pkEnc := rfl
theorem decode_encode_pkEncC : decode (encode .pkEncC) = .ok .pkEncC := rfl
theorem decode_encode_ckEnc : decode (encode .ckEnc) = .ok .ckEnc := rfl
theorem decode_encode_ckEncC : decode (encode .ckEncC) = .ok .ckEncC := rfl
theorem decode_encode_ckDec : decode (encode .ckDec) = .ok .ckDec := rfl

end Sys2Proof
end

