-- ==== Sys2Proof/Laws/Operands.lean ====
section
/-! SUPPORT. What the operand operations compute: exact integers wrapped once, slices of the array ports, and when each check passes
or raises. -/

namespace Sys2Proof.Machine

/-! ### Widening and accumulation -/

theorem widen_eq_ofInt (ext : ByteExt) (b : Byte) : widen ext b = BitVec.ofInt 64 (byteInt ext b) := by
  cases ext with
  | zext => apply BitVec.eq_of_toNat_eq; simp [widen, byteInt]
  | sext => rfl

theorem digitValue_eq_ofInt (ext : ByteExt) (b : Byte) : digitValue ext b = BitVec.ofInt 64 (byteInt ext b - 48) := by
  rw [digitValue, widen_eq_ofInt, Int.sub_eq_add_neg, BitVec.ofInt_add, BitVec.sub_eq_add_neg]
  rfl

theorem accumulate_from (ext : ByteExt) (l : List Byte) (v : Int) :
    l.foldl (fun v b => v * 10 + digitValue ext b) (BitVec.ofInt 64 v) =
      BitVec.ofInt 64 (v * 10 ^ l.length + decimalInt ext l) := by
  induction l generalizing v with
  | nil => simp [decimalInt]
  | cons b bs ih =>
    have h : BitVec.ofInt 64 v * 10 + digitValue ext b = BitVec.ofInt 64 (v * 10 + (byteInt ext b - 48)) := by
      rw [digitValue_eq_ofInt, BitVec.ofInt_add, BitVec.ofInt_mul]; rfl
    rw [List.foldl_cons, h, ih, decimalInt, List.length_cons]
    congr 1
    ring

/-- R71: `acc` is the residue of the exact decimal integer. -/
theorem accumulate_eq_ofInt (ext : ByteExt) (l : List Byte) : accumulate ext l = BitVec.ofInt 64 (decimalInt ext l) := by
  have h := accumulate_from ext l 0
  simpa [accumulate] using h

theorem decimalInt_eq_decimalNat (ext : ByteExt) (l : List Byte) (h : ∀ b ∈ l, Digit b) :
    decimalInt ext l = decimalNat l := by
  induction l with
  | nil => rfl
  | cons b bs ih =>
    have hb : Digit b := h b (by simp)
    have hi : byteInt ext b = b.toNat := by
      cases ext with
      | zext => rfl
      | sext => simp only [byteInt]; rw [BitVec.toInt_eq_toNat_of_lt]; have := hb.2; omega
    rw [decimalInt, decimalNat, ih (fun c hc => h c (by simp [hc])), hi]
    have := hb.1
    push_cast [Nat.cast_sub (show 48 ≤ b.toNat by omega)]
    ring

theorem decimalNat_lt (l : List Byte) (h : ∀ b ∈ l, Digit b) : decimalNat l < 10 ^ l.length := by
  induction l with
  | nil => simp [decimalNat]
  | cons b bs ih =>
    have hb : Digit b := h b (by simp)
    have hr := ih fun c hc => h c (by simp [hc])
    have : (b.toNat - 48) * 10 ^ bs.length ≤ 9 * 10 ^ bs.length := Nat.mul_le_mul_right _ (by have := hb.2; omega)
    rw [decimalNat, List.length_cons, pow_succ]
    omega

/-! ### The array ports -/

theorem numCount_lt (s : State) : numCount s < 256 := s.sampled.numLen.isLt

theorem hexCount_lt (s : State) : hexCount s < 256 := s.sampled.hexLen.isLt

theorem numBytes_length (s : State) : (numBytes s).length = numCount s := by
  have := numCount_lt s
  simp [numBytes]
  omega

theorem hexBytes_length (s : State) : (hexBytes s).length = hexCount s := by
  have := hexCount_lt s
  simp [hexBytes]
  omega

theorem numBytes_getElem (s : State) (k : Nat) (h : k < (numBytes s).length) : (numBytes s)[k] = numAt s k := by
  have h' := h
  rw [numBytes_length] at h'
  have := numCount_lt s
  simp [numBytes, numAt, List.getD_eq_getElem?_getD, show k < 255 by omega]

theorem hexBytes_getElem (s : State) (k : Nat) (h : k < (hexBytes s).length) : (hexBytes s)[k] = hexAt s k := by
  have h' := h
  rw [hexBytes_length] at h'
  have := hexCount_lt s
  simp [hexBytes, hexAt, List.getD_eq_getElem?_getD, show k < 255 by omega]

theorem numSlice_length (s : State) (lo n : Nat) (h : lo + n ≤ 255) : (numSlice s lo n).length = n := by
  simp [numSlice]
  omega

theorem numSlice_getElem (s : State) (lo n k : Nat) (hk : k < (numSlice s lo n).length) :
    (numSlice s lo n)[k] = numAt s (lo + k) := by
  have h' := hk
  simp [numSlice] at h'
  simp [numSlice, numAt, List.getD_eq_getElem?_getD, show lo + k < 255 by omega]

theorem numSlice_digits (s : State) (lo n : Nat) (h : NumberOk s) (hn : lo + n ≤ s.sampled.numLen.toNat) :
    ∀ b ∈ numSlice s lo n, Digit b := by
  intro b hb
  obtain ⟨k, hk, rfl⟩ := List.getElem_of_mem hb
  rw [numSlice_getElem]
  apply h
  simp [numSlice] at hk
  omega

theorem numBytes_eq_slice (s : State) : numBytes s = numSlice s 0 (numCount s) := by simp [numBytes, numSlice]

/-! ### The checks -/

theorem isUpper_iff (b : Byte) : isUpper b = true ↔ Upper b := by simp [isUpper, Upper]

theorem isUpper_eq_false {b : Byte} (h : ¬ Upper b) : isUpper b = false := by
  cases hb : isUpper b with
  | false => rfl
  | true => exact absurd ((isUpper_iff b).1 hb) h

theorem isDigit_iff (b : Byte) : isDigit b = true ↔ Digit b := by simp [isDigit, Digit]

theorem checkNumLen_pass {s : State} (h : numCount s ≤ s.cfg.numInMax) : checkNumLen s = none := by
  rw [checkNumLen, if_neg (by omega)]

theorem checkNumLen_raise {s : State} (h : s.cfg.numInMax < numCount s) :
    checkNumLen s = some ⟨.lengthRange, .number, 0, .none⟩ := by rw [checkNumLen, if_pos h]

theorem checkHexLen_pass {s : State} (h : hexCount s ≤ s.cfg.hexInMax) : checkHexLen s = none := by
  rw [checkHexLen, if_neg (by omega)]

theorem checkHexLen_raise {s : State} (h : s.cfg.hexInMax < hexCount s) :
    checkHexLen s = some ⟨.lengthRange, .hex, 0, .none⟩ := by rw [checkHexLen, if_pos h]

theorem ctryIn_toList (p : Ports) : p.ctryIn.toList = [p.ctryIn[0], p.ctryIn[1]] := by
  apply List.ext_getElem <;> simp
  intro k hk
  have h : k = 0 ∨ k = 1 := by omega
  rcases h with rfl | rfl <;> rfl

/-- What the country check answers, byte 0 before byte 1 (R129). -/
theorem checkCountry_eq (s : State) :
    checkCountry s =
      if isUpper s.sampled.ctryIn[0] = false then some ⟨.invalidInput, .country, 0, .none⟩
      else if isUpper s.sampled.ctryIn[1] = false then some ⟨.invalidInput, .country, 1, .none⟩
      else none := by
  rw [checkCountry, ctryIn_toList]
  cases h0 : isUpper s.sampled.ctryIn[0] <;> cases h1 : isUpper s.sampled.ctryIn[1] <;>
    simp [List.findIdx?_cons, h0, h1]

theorem checkCountry_raise_first {s : State} (h : ¬ Upper s.sampled.ctryIn[0]) :
    checkCountry s = some ⟨.invalidInput, .country, 0, .none⟩ := by
  rw [checkCountry_eq, isUpper_eq_false h]
  simp

theorem checkCountry_raise_second {s : State} (h0 : Upper s.sampled.ctryIn[0]) (h1 : ¬ Upper s.sampled.ctryIn[1]) :
    checkCountry s = some ⟨.invalidInput, .country, 1, .none⟩ := by
  rw [checkCountry_eq, (isUpper_iff _).2 h0, isUpper_eq_false h1]
  simp

theorem checkCountry_pass {s : State} (h : CountryOk s) : checkCountry s = none := by
  rw [checkCountry_eq, (isUpper_iff _).2 h.1, (isUpper_iff _).2 h.2]
  simp

/-- The number check passes exactly when every presented byte is a digit. -/
theorem checkNumber_pass {s : State} (h : NumberOk s) : checkNumber s = none := by
  simp only [checkNumber, Option.map_eq_none_iff, List.findIdx?_eq_none_iff]
  intro b hb
  obtain ⟨k, hk, rfl⟩ := List.getElem_of_mem hb
  rw [numBytes_getElem]
  rw [numBytes_length] at hk
  simpa using (isDigit_iff _).2 (h k hk)

/-- The number check raises at the first byte that is no digit (R126, R129). -/
theorem checkNumber_raise {s : State} {k : Nat} (hk : k < numCount s) (hlt : ∀ j < k, Digit (numAt s j))
    (hbad : ¬ Digit (numAt s k)) : checkNumber s = some ⟨.invalidInput, .number, BitVec.ofNat 8 k, .none⟩ := by
  have hlen : k < (numBytes s).length := by rw [numBytes_length]; exact hk
  have h : (numBytes s).findIdx? (fun b => !isDigit b) = some k := by
    rw [List.findIdx?_eq_some_iff_getElem]
    refine ⟨hlen, ?_, ?_⟩
    · rw [numBytes_getElem]
      cases hd : isDigit (numAt s k) with
      | false => rfl
      | true => exact absurd ((isDigit_iff _).1 hd) hbad
    · intro j hj
      rw [numBytes_getElem]
      simpa using (isDigit_iff _).2 (hlt j hj)
  rw [checkNumber, h]
  rfl

end Sys2Proof.Machine
end

