-- ==== Sys2Proof/Laws/State.lean ====
section
/-! SUPPORT. One lemma per field of the state per shared operation, so that no proof unfolds a record update. -/

namespace Sys2Proof.Machine

@[simp] theorem complete_cfg (r : Results) (s : State) : (complete r s).cfg = s.cfg := rfl
@[simp] theorem complete_results (r : Results) (s : State) : (complete r s).results = r := rfl
@[simp] theorem complete_status (r : Results) (s : State) :
    (complete r s).status = nextStatus none s.status s.sampled.cmd := rfl
@[simp] theorem complete_phase (r : Results) (s : State) : (complete r s).phase = .idle := rfl
@[simp] theorem complete_done (r : Results) (s : State) : (complete r s).done = true := rfl
@[simp] theorem complete_sampled (r : Results) (s : State) : (complete r s).sampled = s.sampled := rfl
@[simp] theorem complete_requests (r : Results) (s : State) : (complete r s).requests = s.requests := rfl

@[simp] theorem raise_cfg (e : ErrInfo) (s : State) : (raise e s).cfg = s.cfg := rfl
@[simp] theorem raise_results (e : ErrInfo) (s : State) : (raise e s).results = Results.zero := rfl
@[simp] theorem raise_status (e : ErrInfo) (s : State) :
    (raise e s).status = nextStatus (some e) s.status s.sampled.cmd := rfl
@[simp] theorem raise_phase (e : ErrInfo) (s : State) : (raise e s).phase = .idle := rfl
@[simp] theorem raise_done (e : ErrInfo) (s : State) : (raise e s).done = true := rfl
@[simp] theorem raise_sampled (e : ErrInfo) (s : State) : (raise e s).sampled = s.sampled := rfl
@[simp] theorem raise_requests (e : ErrInfo) (s : State) : (raise e s).requests = s.requests := rfl

@[simp] theorem accept_cfg (p : Ports) (s : State) : (accept p s).cfg = s.cfg := rfl
@[simp] theorem accept_results (p : Ports) (s : State) : (accept p s).results = s.results := rfl
@[simp] theorem accept_status (p : Ports) (s : State) : (accept p s).status = s.status := rfl
@[simp] theorem accept_phase (p : Ports) (s : State) : (accept p s).phase = .busy (Config.latencyLessOne p) := rfl
@[simp] theorem accept_done (p : Ports) (s : State) : (accept p s).done = false := rfl
@[simp] theorem accept_sampled (p : Ports) (s : State) : (accept p s).sampled = p := rfl
@[simp] theorem accept_requests (p : Ports) (s : State) : (accept p s).requests = s.requests := rfl

@[simp] theorem idleEdge_cfg (s : State) : (idleEdge s).cfg = s.cfg := rfl
@[simp] theorem idleEdge_results (s : State) : (idleEdge s).results = s.results := rfl
@[simp] theorem idleEdge_status (s : State) : (idleEdge s).status = s.status := rfl
@[simp] theorem idleEdge_phase (s : State) : (idleEdge s).phase = s.phase := rfl
@[simp] theorem idleEdge_done (s : State) : (idleEdge s).done = false := rfl
@[simp] theorem idleEdge_sampled (s : State) : (idleEdge s).sampled = s.sampled := rfl
@[simp] theorem idleEdge_requests (s : State) : (idleEdge s).requests = s.requests := rfl

@[simp] theorem resetOp_cfg (s : State) : (resetOp s).cfg = s.cfg := rfl
@[simp] theorem resetOp_results (s : State) : (resetOp s).results = Results.zero := rfl
@[simp] theorem resetOp_status (s : State) : (resetOp s).status = 0 := rfl
@[simp] theorem resetOp_phase (s : State) : (resetOp s).phase = .idle := rfl
@[simp] theorem resetOp_done (s : State) : (resetOp s).done = false := rfl
@[simp] theorem resetOp_sampled (s : State) : (resetOp s).sampled = Ports.zero := rfl
@[simp] theorem resetOp_requests (s : State) : (resetOp s).requests = s.requests := rfl

end Sys2Proof.Machine
end

