-- ==== Sys2Proof/Laws/Status.lean ====
section
/-! SUPPORT. The fields of a packed STATUS word, and how a finished command looks to the statements. -/

namespace Sys2Proof.Machine

theorem toNat_append_eq_add {m n : Nat} (x : BitVec m) (y : BitVec n) :
    (x ++ y).toNat = x.toNat * 2 ^ n + y.toNat := by
  rw [BitVec.toNat_append, ← Nat.shiftLeft_add_eq_or_of_lt y.isLt, Nat.shiftLeft_eq]

theorem field_toNat {n : Nat} (v : BitVec n) (lo w : Nat) : (v.extractLsb' lo w).toNat = v.toNat / 2 ^ lo % 2 ^ w := by
  rw [BitVec.extractLsb'_toNat, Nat.shiftRight_eq_div_pow]

section pack

variable (err : BitVec 3) (eopnd esub : BitVec 2) (eidx : BitVec 8) (serr cmdv : BitVec 1) (lcmd : BitVec 8)

/-- The formula 95_test_vectors.md gives for a STATUS word. -/
theorem pack_toNat :
    (Status.pack err eopnd esub eidx serr cmdv lcmd).toNat =
      lcmd.toNat * 2 ^ 24 + cmdv.toNat * 2 ^ 17 + serr.toNat * 2 ^ 16 + eidx.toNat * 2 ^ 8 + esub.toNat * 2 ^ 6 +
        eopnd.toNat * 2 ^ 4 + err.toNat := by
  simp only [Status.pack, toNat_append_eq_add]
  simp
  ring

/-- The fields of a packed word are the ones packed, and the reserved bits are 0. -/
theorem statusIs_pack : StatusIs (Status.pack err eopnd esub eidx serr cmdv lcmd) err eopnd esub eidx serr cmdv lcmd := by
  have h0 := err.isLt
  have h1 := eopnd.isLt
  have h2 := esub.isLt
  have h3 := eidx.isLt
  have h4 := serr.isLt
  have h5 := cmdv.isLt
  have h6 := lcmd.isLt
  constructor <;> apply BitVec.eq_of_toNat_eq
  · rw [Status.err, field_toNat, pack_toNat]; omega
  · rw [Status.rsvLow, field_toNat, pack_toNat]; show _ = 0; omega
  · rw [Status.eopnd, field_toNat, pack_toNat]; omega
  · rw [Status.esub, field_toNat, pack_toNat]; omega
  · rw [Status.eidx, field_toNat, pack_toNat]; omega
  · rw [Status.serr, field_toNat, pack_toNat]; omega
  · rw [Status.cmdv, field_toNat, pack_toNat]; omega
  · rw [Status.rsvHigh, field_toNat, pack_toNat]; show _ = 0; omega
  · rw [Status.lcmd, field_toNat, pack_toNat]; omega

end pack

/-- STATUS after a completion without error (R33). -/
theorem statusIs_nextStatus_none (old : BitVec 32) (cmd : Byte) :
    StatusIs (nextStatus none old cmd) 0 0 0 0 (Status.serr old) 1 cmd := statusIs_pack ..

/-- STATUS after an error (R33, R123). -/
theorem statusIs_nextStatus_some (e : ErrInfo) (old : BitVec 32) (cmd : Byte) :
    StatusIs (nextStatus (some e) old cmd) e.err.code e.opnd.code e.sub.code e.idx 1 1 cmd := statusIs_pack ..

theorem completedWith_complete (r : Results) (s : State) : CompletedWith s (complete r s) r :=
  ⟨rfl, statusIs_nextStatus_none s.status s.sampled.cmd, rfl, rfl, rfl, rfl, rfl⟩

theorem raisedWith_raise (e : ErrInfo) (s : State) :
    RaisedWith s (raise e s) e.err.code e.opnd.code e.idx e.sub.code :=
  ⟨rfl, statusIs_nextStatus_some e s.status s.sampled.cmd, rfl, rfl, rfl, rfl, rfl⟩

end Sys2Proof.Machine
end

