-- ==== Sys2Proof/Laws/Ops.lean ====
section
/-! SUPPORT. What the end of a command can be, said once: every command completes or raises. -/

namespace Sys2Proof.Machine

@[simp] theorem finish_none (r : Results) (s : State) : finish none r s = .next (complete r s) := rfl

@[simp] theorem finish_some (e : ErrInfo) (r : Results) (s : State) : finish (some e) r s = .next (raise e s) := rfl

/-- Everything `finish` can do. -/
theorem finish_cases (check : Option ErrInfo) (r : Results) (s : State) :
    (check = none ∧ finish check r s = .next (complete r s)) ∨
      ∃ e, check = some e ∧ finish check r s = .next (raise e s) := by
  cases check with
  | none => exact .inl ⟨rfl, rfl⟩
  | some e => exact .inr ⟨e, rfl, rfl⟩

/-- What a command checks, in the order of R129. -/
def checkOf (i : Instr) (s : State) : Option ErrInfo :=
  match i with
  | .nkEnc => checkNumLen s
  | .nkEncC => checkNumLen s <|> checkCountry s <|> checkNumber s
  | .nkDec => none
  | .nkCmpc => none
  | .nkToHex => none
  | .nkFromHex => checkHexLen s <|> checkHexEmpty s <|> checkHexDigits s <|> checkHexRange s
  | .pkEnc => checkNumLen s
  | .pkEncC => checkNumLen s <|> checkNumber s
  | .ckEnc => none
  | .ckEncC => checkCountry s
  | .ckDec => none

/-- What a command writes when every check passes. -/
def resultsOf (i : Instr) (s : State) : Results :=
  match i with
  | .nkEnc => { Results.zero with res := nkEncode s }
  | .nkEncC => { Results.zero with res := nkEncode s }
  | .nkDec => nkDecode s.sampled.a
  | .nkCmpc => { Results.zero with res := nkCompare s.sampled.a s.sampled.b }
  | .nkToHex => { Results.zero with hexOut := Vector.ofFn fun i => hexChar (nibble s.sampled.a i.val) }
  | .nkFromHex => { Results.zero with res := BitVec.ofNat 64 (hexValue (hexBytes s)) }
  | .pkEnc => { Results.zero with res := pkEncode s }
  | .pkEncC => { Results.zero with res := pkEncode s }
  | .ckEnc => { Results.zero with res := ckEncode s }
  | .ckEncC => { Results.zero with res := ckEncode s }
  | .ckDec => { Results.zero with ctryOut := #v[s.sampled.a.extractLsb' 8 8, s.sampled.a.extractLsb' 0 8] }

/-- Every command is its checks, then its results. -/
theorem exec_eq_finish (i : Instr) (s : State) : exec i s = finish (checkOf i s) (resultsOf i s) s := by cases i <;> rfl

/-- Everything a command can do: complete with its results, or raise the first error it checks for. -/
theorem exec_cases (i : Instr) (s : State) :
    (checkOf i s = none ∧ exec i s = .next (complete (resultsOf i s) s)) ∨
      ∃ e, checkOf i s = some e ∧ exec i s = .next (raise e s) := by
  rw [exec_eq_finish]
  exact finish_cases _ _ _

/-- A command whose checks all pass completes with its results. -/
theorem exec_pass {i : Instr} {s : State} (h : checkOf i s = none) : exec i s = .next (complete (resultsOf i s) s) := by
  rw [exec_eq_finish, h]
  rfl

/-- A command raises the first error its checks give. -/
theorem exec_raise {i : Instr} {s : State} {e : ErrInfo} (h : checkOf i s = some e) : exec i s = .next (raise e s) := by
  rw [exec_eq_finish, h]
  rfl

theorem err_complete (r : Results) (s : State) : Status.err (complete r s).status = 0 :=
  (completedWith_complete r s).status.err

theorem runSampled_of_decode {s : State} {i : Instr} (h : decode s.sampled.cmd = .ok i) : runSampled s = exec i s := by
  rw [runSampled, h]

theorem runSampled_of_illegal {s : State} {e : DecodeError} (h : decode s.sampled.cmd = .error e) :
    runSampled s = .next (raise illegalCmd s) := by
  rw [runSampled, h]

/-- Everything an accepted command word can do. -/
theorem runSampled_cases (s : State) :
    (∃ i, decode s.sampled.cmd = .ok i ∧ checkOf i s = none ∧ runSampled s = .next (complete (resultsOf i s) s)) ∨
    (∃ i e, decode s.sampled.cmd = .ok i ∧ checkOf i s = some e ∧ runSampled s = .next (raise e s)) ∨
    (∃ e, decode s.sampled.cmd = .error e ∧ runSampled s = .next (raise illegalCmd s)) := by
  cases h : decode s.sampled.cmd with
  | error e => exact .inr (.inr ⟨e, rfl, runSampled_of_illegal h⟩)
  | ok i =>
    rw [runSampled_of_decode h]
    rcases exec_cases i s with ⟨hc, he⟩ | ⟨e, hc, he⟩
    · exact .inl ⟨i, rfl, hc, he⟩
    · exact .inr (.inl ⟨i, e, rfl, hc, he⟩)

end Sys2Proof.Machine
end

