-- ==== Sys2Proof/Laws/Hex.lean ====
section
/-! SUPPORT. Hex digits, the value of a hex text, and when each check of NK.FROMHEX passes or raises. -/

namespace Sys2Proof.Machine

/-! ### Digits -/

/-- `hexchar` gives the lowercase digit of the nibble (R90). -/
theorem hexChar_lower (d : BitVec 4) : LowerHex (hexChar d) d.toNat := by
  have h := d.isLt
  rw [hexChar]
  split_ifs with hd
  · left
    rw [BitVec.toNat_ofNat]
    omega
  · right
    rw [BitVec.toNat_ofNat]
    omega

/-- `hexval` answers the digit value (R90). -/
theorem hexVal_eq_some_iff (b : Byte) (d : Nat) : hexVal b = some d ↔ AnyHex b d := by
  simp only [hexVal, AnyHex, LowerHex]
  split_ifs <;> simp <;> omega

theorem hexVal_isNone_iff (b : Byte) : (hexVal b).isNone = true ↔ NotHex b := by
  rw [NotHex, Option.isNone_iff_eq_none, Option.eq_none_iff_forall_ne_some]
  exact forall_congr' fun d => not_congr (hexVal_eq_some_iff b d)

/-- Nibble `i` of a word, as arithmetic (R91). -/
theorem nibble_toNat (a : Word) (i : Nat) (h : i < 16) : (nibble a i).toNat = a.toNat / 16 ^ (15 - i) % 16 := by
  have e : 60 - 4 * i = 4 * (15 - i) := by omega
  rw [nibble, field_toNat, e, pow_mul]
  norm_num

/-! ### Values -/

theorem hexValue_from (bytes : List Byte) (ds : List Nat) (v : Nat) (hl : ds.length = bytes.length)
    (h : ∀ j < bytes.length, AnyHex (bytes.getD j 0) (ds.getD j 0)) :
    bytes.foldl hexStep v = v * 16 ^ ds.length + hexNat ds := by
  induction bytes generalizing ds v with
  | nil =>
    obtain rfl : ds = [] := by simpa using hl
    simp [hexNat]
  | cons b bs ih =>
    cases ds with
    | nil => simp at hl
    | cons d ds =>
      have hb : hexVal b = some d := (hexVal_eq_some_iff b d).2 (by simpa using h 0 (by simp))
      have hs : hexStep v b = v * 16 + d := by rw [hexStep, hb]; rfl
      rw [List.foldl_cons, hs, ih ds _ (by simpa using hl) (fun j hj => by simpa using h (j + 1) (by simpa using hj)), hexNat,
        List.length_cons, pow_succ]
      ring

/-- The value of a hex text is the number its digits write (R92). -/
theorem hexValue_eq {bytes : List Byte} {ds : List Nat} (hl : ds.length = bytes.length)
    (h : ∀ j < bytes.length, AnyHex (bytes.getD j 0) (ds.getD j 0)) : hexValue bytes = hexNat ds := by
  rw [hexValue, hexValue_from bytes ds 0 hl h]
  simp

theorem hexNat_lt (ds : List Nat) (h : ∀ d ∈ ds, d < 16) : hexNat ds < 16 ^ ds.length := by
  induction ds with
  | nil => simp [hexNat]
  | cons d ds ih =>
    have hd := h d (by simp)
    have hr := ih fun c hc => h c (by simp [hc])
    have : d * 16 ^ ds.length ≤ 15 * 16 ^ ds.length := Nat.mul_le_mul_right _ (by omega)
    rw [hexNat, List.length_cons, pow_succ]
    omega

theorem hexNat_append_one (ds : List Nat) (d : Nat) : hexNat (ds ++ [d]) = hexNat ds * 16 + d := by
  induction ds with
  | nil => simp [hexNat]
  | cons c cs ih =>
    rw [List.cons_append, hexNat, ih, hexNat, List.length_append, List.length_singleton, pow_succ]
    ring

/-- The nibbles of a number, highest first, write the number (R91, R93). -/
theorem hexNat_nibbles (n a : Nat) : hexNat ((List.range n).map fun k => a / 16 ^ (n - 1 - k) % 16) = a % 16 ^ n := by
  induction n generalizing a with
  | zero => simp [hexNat, Nat.mod_one]
  | succ n ih =>
    have h : (List.range n).map (fun k => a / 16 ^ (n + 1 - 1 - k) % 16) =
        (List.range n).map fun k => a / 16 / 16 ^ (n - 1 - k) % 16 := by
      apply List.map_congr_left
      intro k hk
      have hk' : k < n := by simpa using hk
      rw [Nat.div_div_eq_div_mul, ← pow_succ']
      congr 3
      omega
    rw [List.range_succ, List.map_append, h, List.map_singleton, hexNat_append_one, ih]
    have e : n + 1 - 1 - n = 0 := by omega
    rw [e, pow_zero, Nat.div_one, pow_succ', Nat.mod_mul]
    ring

theorem foldl_hexStep_ge (bytes : List Byte) (v : Nat) : v ≤ bytes.foldl hexStep v := by
  induction bytes generalizing v with
  | nil => exact le_rfl
  | cons b bs ih =>
    rw [List.foldl_cons]
    refine le_trans ?_ (ih (hexStep v b))
    rw [hexStep]
    omega

/-- A value below 2^64 at the end never reached it (R92). -/
theorem overflowFrom_none {bytes : List Byte} {v i : Nat} (h : bytes.foldl hexStep v < 2 ^ 64) :
    overflowFrom v i bytes = none := by
  induction bytes generalizing v i with
  | nil => rfl
  | cons b bs ih =>
    rw [List.foldl_cons] at h
    have := foldl_hexStep_ge bs (hexStep v b)
    rw [overflowFrom, if_neg (by omega), ih h]

/-- The overflow is found at the first byte where the value reaches 2^64 (R92, R127). -/
theorem overflowFrom_some {bytes : List Byte} {v i k : Nat} (hk : k < bytes.length)
    (hlo : (bytes.take k).foldl hexStep v < 2 ^ 64) (hhi : 2 ^ 64 ≤ (bytes.take (k + 1)).foldl hexStep v) :
    overflowFrom v i bytes = some (i + k) := by
  induction bytes generalizing v i k with
  | nil => simp at hk
  | cons b bs ih =>
    cases k with
    | zero =>
      rw [overflowFrom, if_pos (by simpa using hhi)]
      rfl
    | succ k =>
      rw [List.take_succ_cons, List.foldl_cons] at hlo hhi
      have := foldl_hexStep_ge (bs.take k) (hexStep v b)
      rw [overflowFrom, if_neg (by omega), ih (by simpa using hk) hlo hhi]
      congr 1
      omega

/-- An overflow index lies in the text. -/
theorem overflowFrom_lt {bytes : List Byte} {v i k : Nat} (h : overflowFrom v i bytes = some k) :
    k < i + bytes.length := by
  induction bytes generalizing v i with
  | nil => simp [overflowFrom] at h
  | cons b bs ih =>
    rw [overflowFrom] at h
    rw [List.length_cons]
    split_ifs at h with hv
    · cases h
      omega
    · have := ih h
      omega

/-! ### The operand of NK.FROMHEX -/

theorem hexBytes_getD (s : State) (j : Nat) (h : j < hexCount s) : (hexBytes s).getD j 0 = hexAt s j := by
  have hl : j < (hexBytes s).length := by rw [hexBytes_length]; exact h
  rw [List.getD_eq_getElem _ _ hl, hexBytes_getElem]

theorem hexDigits_lt {s : State} {n : Nat} {ds : List Nat} (h : HexDigits s n ds) : ∀ d ∈ ds, d < 16 := by
  intro d hd
  obtain ⟨k, hk, rfl⟩ := List.getElem_of_mem hd
  have := h.2 k (by rw [← h.1]; exact hk)
  rw [List.getD_eq_getElem _ _ hk] at this
  rcases this with (⟨h1, _⟩ | ⟨_, h1, _⟩) | ⟨_, h1, _⟩ <;> omega

/-- The value of the first `k` bytes of the operand. -/
theorem hexValue_take {s : State} {ds : List Nat} (h : HexDigits s (hexCount s) ds) (k : Nat) (hk : k ≤ hexCount s) :
    hexValue ((hexBytes s).take k) = hexNat (ds.take k) := by
  have hl := hexBytes_length s
  apply hexValue_eq
  · rw [List.length_take, List.length_take, h.1, hl]
  · intro j hj
    rw [List.length_take, hl] at hj
    have e1 : ((hexBytes s).take k).getD j 0 = (hexBytes s).getD j 0 := by
      simp only [List.getD_eq_getElem?_getD, List.getElem?_take, if_pos (show j < k by omega)]
    have e2 : (ds.take k).getD j 0 = ds.getD j 0 := by
      simp only [List.getD_eq_getElem?_getD, List.getElem?_take, if_pos (show j < k by omega)]
    rw [e1, e2, hexBytes_getD s j (by omega)]
    exact h.2 j (by omega)

theorem hexValue_whole {s : State} {ds : List Nat} (h : HexDigits s (hexCount s) ds) :
    hexValue (hexBytes s) = hexNat ds := by
  have e := hexValue_take h (hexCount s) le_rfl
  rwa [List.take_of_length_le (by rw [hexBytes_length]), List.take_of_length_le (by rw [h.1])] at e

theorem checkHexEmpty_pass {s : State} (h : 0 < hexCount s) : checkHexEmpty s = none := by
  rw [checkHexEmpty, if_neg (by omega)]

theorem checkHexEmpty_raise {s : State} (h : hexCount s = 0) :
    checkHexEmpty s = some ⟨.formatError, .hex, 0, .empty⟩ := by
  rw [checkHexEmpty, if_pos h]

theorem checkHexDigits_pass {s : State} (h : ∀ j < hexCount s, ¬ NotHex (hexAt s j)) : checkHexDigits s = none := by
  simp only [checkHexDigits, Option.map_eq_none_iff, List.findIdx?_eq_none_iff]
  intro b hb
  obtain ⟨k, hk, rfl⟩ := List.getElem_of_mem hb
  rw [hexBytes_getElem]
  rw [hexBytes_length] at hk
  exact eq_false_of_ne_true fun hn => h k hk ((hexVal_isNone_iff _).1 hn)

theorem checkHexDigits_raise {s : State} {k : Nat} (hk : k < hexCount s) (hlt : ∀ j < k, ¬ NotHex (hexAt s j))
    (hbad : NotHex (hexAt s k)) : checkHexDigits s = some ⟨.formatError, .hex, BitVec.ofNat 8 k, .nonHex⟩ := by
  have hlen : k < (hexBytes s).length := by rw [hexBytes_length]; exact hk
  have h : (hexBytes s).findIdx? (fun b => (hexVal b).isNone) = some k := by
    rw [List.findIdx?_eq_some_iff_getElem]
    refine ⟨hlen, ?_, ?_⟩
    · rw [hexBytes_getElem]
      exact (hexVal_isNone_iff _).2 hbad
    · intro j hj hn
      rw [hexBytes_getElem] at hn
      exact hlt j hj ((hexVal_isNone_iff _).1 hn)
  rw [checkHexDigits, h]
  rfl

theorem notHex_of_hexDigits {s : State} {n : Nat} {ds : List Nat} (h : HexDigits s n ds) :
    ∀ j < n, ¬ NotHex (hexAt s j) := fun j hj hn => hn _ (h.2 j hj)

theorem checkHexRange_pass {s : State} {ds : List Nat} (h : HexDigits s (hexCount s) ds) (hv : hexNat ds < 2 ^ 64) :
    checkHexRange s = none := by
  rw [checkHexRange, overflowFrom_none, Option.map_none]
  rw [← hexValue, hexValue_whole h]
  exact hv

theorem checkHexRange_raise {s : State} {ds : List Nat} (h : HexDigits s (hexCount s) ds) {k : Nat} (hk : k < hexCount s)
    (hlo : hexNat (ds.take k) < 2 ^ 64) (hhi : 2 ^ 64 ≤ hexNat (ds.take (k + 1))) :
    checkHexRange s = some ⟨.formatError, .hex, BitVec.ofNat 8 k, .overflow⟩ := by
  rw [← hexValue_take h k (by omega), hexValue] at hlo
  rw [← hexValue_take h (k + 1) (by omega), hexValue] at hhi
  rw [checkHexRange, overflowFrom_some (by rw [hexBytes_length]; exact hk) hlo hhi, zero_add]
  rfl

end Sys2Proof.Machine
end

