-- ==== Sys2Proof/Laws/Reads.lean ====
section
/-! SUPPORT. What each operand operation depends on: the parts of the sampled ports and the parameters alone. -/

namespace Sys2Proof.Machine

theorem numBytes_congr {s u : State} (h : sameNumber s.sampled u.sampled) : numBytes s = numBytes u := by
  have hc : numCount s = numCount u := congrArg BitVec.toNat h.1
  apply List.ext_getElem
  · rw [numBytes_length, numBytes_length, hc]
  · intro k h1 h2
    rw [numBytes_getElem, numBytes_getElem]
    rw [numBytes_length] at h1
    exact h.2 k h1

theorem hexBytes_congr {s u : State} (h : sameHex s.sampled u.sampled) : hexBytes s = hexBytes u := by
  have hc : hexCount s = hexCount u := congrArg BitVec.toNat h.1
  apply List.ext_getElem
  · rw [hexBytes_length, hexBytes_length, hc]
  · intro k h1 h2
    rw [hexBytes_getElem, hexBytes_getElem]
    rw [hexBytes_length] at h1
    exact h.2 k h1

theorem checkNumLen_congr {s u : State} (hc : s.cfg = u.cfg) (h : sameNumber s.sampled u.sampled) :
    checkNumLen s = checkNumLen u := by
  rw [checkNumLen, checkNumLen, numCount, numCount, hc, h.1]

theorem checkNumber_congr {s u : State} (h : sameNumber s.sampled u.sampled) : checkNumber s = checkNumber u := by
  rw [checkNumber, checkNumber, numBytes_congr h]

theorem checkCountry_congr {s u : State} (h : sameCountry s.sampled u.sampled) : checkCountry s = checkCountry u := by
  rw [sameCountry] at h
  rw [checkCountry, checkCountry, h]

theorem nkEncode_congr {s u : State} (hc : s.cfg = u.cfg) (h : sameCountry s.sampled u.sampled)
    (hn : sameNumber s.sampled u.sampled) : nkEncode s = nkEncode u := by
  rw [sameCountry] at h
  rw [nkEncode, nkEncode, numBytes_congr hn, numCount, numCount, hn.1, hc]
  simp only [h]

theorem pkEncode_congr {s u : State} (hc : s.cfg = u.cfg) (hn : sameNumber s.sampled u.sampled) :
    pkEncode s = pkEncode u := by
  rw [pkEncode, pkEncode, numBytes_congr hn, numCount, numCount, hn.1, hc]

theorem ckEncode_congr {s u : State} (hc : s.cfg = u.cfg) (h : sameCountry s.sampled u.sampled) :
    ckEncode s = ckEncode u := by
  rw [sameCountry] at h
  simp only [ckEncode, h, hc]

/-- A command's checks depend on what it reads alone (R22). -/
theorem checkOf_congr (i : Instr) {s u : State} (hc : s.cfg = u.cfg) (h : AgreeOn i s.sampled u.sampled) :
    checkOf i s = checkOf i u := by
  cases i with
  | nkEnc => exact checkNumLen_congr hc h.2
  | nkEncC => simp only [checkOf, checkNumLen_congr hc h.2, checkCountry_congr h.1, checkNumber_congr h.2]
  | nkDec => rfl
  | nkCmpc => rfl
  | nkToHex => rfl
  | nkFromHex =>
    have h' : sameHex s.sampled u.sampled := h
    have h1 : checkHexLen s = checkHexLen u := by rw [checkHexLen, checkHexLen, hexCount, hexCount, hc, h'.1]
    have h2 : checkHexEmpty s = checkHexEmpty u := by rw [checkHexEmpty, checkHexEmpty, hexCount, hexCount, h'.1]
    have h3 : checkHexDigits s = checkHexDigits u := by rw [checkHexDigits, checkHexDigits, hexBytes_congr h']
    have h4 : checkHexRange s = checkHexRange u := by rw [checkHexRange, checkHexRange, hexBytes_congr h']
    simp only [checkOf, h1, h2, h3, h4]
  | pkEnc => exact checkNumLen_congr hc h
  | pkEncC => simp only [checkOf, checkNumLen_congr hc h, checkNumber_congr h]
  | ckEnc => rfl
  | ckEncC => exact checkCountry_congr h
  | ckDec => rfl

/-- The low 16 bits hold the two bytes CK.DEC reads (R112). -/
theorem byte_of_low (a b : Word) (h : a.extractLsb' 0 16 = b.extractLsb' 0 16) :
    a.extractLsb' 8 8 = b.extractLsb' 8 8 ∧ a.extractLsb' 0 8 = b.extractLsb' 0 8 := by
  have hn : a.toNat % 2 ^ 16 = b.toNat % 2 ^ 16 := by
    have := congrArg BitVec.toNat h
    rw [field_toNat, field_toNat] at this
    simpa using this
  constructor <;> apply BitVec.eq_of_toNat_eq <;> rw [field_toNat, field_toNat] <;> omega

/-- A command's results depend on what it reads alone (R13, R22). -/
theorem resultsOf_congr (i : Instr) {s u : State} (hc : s.cfg = u.cfg) (h : AgreeOn i s.sampled u.sampled) :
    resultsOf i s = resultsOf i u := by
  cases i with
  | nkEnc => simp only [resultsOf, nkEncode_congr hc h.1 h.2]
  | nkEncC => simp only [resultsOf, nkEncode_congr hc h.1 h.2]
  | nkDec => exact congrArg nkDecode h
  | nkCmpc => simp only [resultsOf, h.1, h.2]
  | nkToHex =>
    have h' : s.sampled.a = u.sampled.a := h
    simp only [resultsOf, h']
  | nkFromHex => simp only [resultsOf, hexBytes_congr h]
  | pkEnc => simp only [resultsOf, pkEncode_congr hc h]
  | pkEncC => simp only [resultsOf, pkEncode_congr hc h]
  | ckEnc => simp only [resultsOf, ckEncode_congr hc h]
  | ckEncC => simp only [resultsOf, ckEncode_congr hc h]
  | ckDec => simp only [resultsOf, (byte_of_low _ _ h).1, (byte_of_low _ _ h).2]

theorem AgreeOn.refl (i : Instr) (p : Ports) : AgreeOn i p p := by
  cases i <;> simp [AgreeOn, sameCountry, sameNumber, sameHex]

end Sys2Proof.Machine
end

