-- ==== Sys2Proof/Laws/Errors.lean ====
section
/-! SUPPORT. Everything a command's checks can raise, said once (60_exceptions.md R121, R129). -/

namespace Sys2Proof.Machine

theorem checkNumLen_cases {s : State} {e : ErrInfo} (h : checkNumLen s = some e) :
    e = ⟨.lengthRange, .number, 0, .none⟩ := by
  rw [checkNumLen] at h
  split_ifs at h
  cases h
  rfl

theorem checkHexLen_cases {s : State} {e : ErrInfo} (h : checkHexLen s = some e) :
    e = ⟨.lengthRange, .hex, 0, .none⟩ := by
  rw [checkHexLen] at h
  split_ifs at h
  cases h
  rfl

theorem checkNumLen_none {s : State} (h : checkNumLen s = none) : numCount s ≤ s.cfg.numInMax := by
  rw [checkNumLen] at h
  split_ifs at h
  omega

theorem checkHexLen_none {s : State} (h : checkHexLen s = none) : hexCount s ≤ s.cfg.hexInMax := by
  rw [checkHexLen] at h
  split_ifs at h
  omega

theorem checkCountry_cases {s : State} {e : ErrInfo} (h : checkCountry s = some e) :
    ∃ k < 2, e = ⟨.invalidInput, .country, BitVec.ofNat 8 k, .none⟩ := by
  rw [checkCountry_eq] at h
  split_ifs at h
  · cases h; exact ⟨0, by omega, rfl⟩
  · cases h; exact ⟨1, by omega, rfl⟩

theorem checkNumber_cases {s : State} {e : ErrInfo} (h : checkNumber s = some e) :
    ∃ k < numCount s, e = ⟨.invalidInput, .number, BitVec.ofNat 8 k, .none⟩ := by
  rw [checkNumber, Option.map_eq_some_iff] at h
  obtain ⟨k, hk, rfl⟩ := h
  obtain ⟨hl, _⟩ := List.findIdx?_eq_some_iff_getElem.1 hk
  rw [numBytes_length] at hl
  exact ⟨k, hl, rfl⟩

theorem checkHexEmpty_cases {s : State} {e : ErrInfo} (h : checkHexEmpty s = some e) :
    e = ⟨.formatError, .hex, 0, .empty⟩ := by
  rw [checkHexEmpty] at h
  split_ifs at h
  cases h
  rfl

theorem checkHexDigits_cases {s : State} {e : ErrInfo} (h : checkHexDigits s = some e) :
    ∃ k < hexCount s, e = ⟨.formatError, .hex, BitVec.ofNat 8 k, .nonHex⟩ := by
  rw [checkHexDigits, Option.map_eq_some_iff] at h
  obtain ⟨k, hk, rfl⟩ := h
  obtain ⟨hl, _⟩ := List.findIdx?_eq_some_iff_getElem.1 hk
  rw [hexBytes_length] at hl
  exact ⟨k, hl, rfl⟩

theorem checkHexRange_cases {s : State} {e : ErrInfo} (h : checkHexRange s = some e) :
    ∃ k < hexCount s, e = ⟨.formatError, .hex, BitVec.ofNat 8 k, .overflow⟩ := by
  rw [checkHexRange, Option.map_eq_some_iff] at h
  obtain ⟨k, hk, rfl⟩ := h
  have hl := overflowFrom_lt hk
  rw [hexBytes_length] at hl
  exact ⟨k, by omega, rfl⟩

/-- The first of two checks that raises is the one reported (R129). -/
theorem orElse_cases {a b : Option ErrInfo} {e : ErrInfo} (h : (a <|> b) = some e) :
    a = some e ∨ (a = none ∧ b = some e) := by
  cases a with
  | none => exact .inr ⟨rfl, by simpa using h⟩
  | some x => exact .inl (by simpa using h)

theorem orElse_none {a b : Option ErrInfo} (h : (a <|> b) = none) : a = none ∧ b = none := by
  cases a with
  | none => exact ⟨rfl, by simpa using h⟩
  | some x => simp at h

/-- The country check passes only on a well-formed country. -/
theorem checkCountry_none {s : State} (h : checkCountry s = none) : CountryOk s := by
  rw [checkCountry_eq] at h
  split_ifs at h with h0 h1
  exact ⟨(isUpper_iff _).1 (by simpa using h0), (isUpper_iff _).1 (by simpa using h1)⟩

/-- The number check passes only on a well-formed number. -/
theorem checkNumber_none {s : State} (h : checkNumber s = none) : NumberOk s := by
  simp only [checkNumber, Option.map_eq_none_iff, List.findIdx?_eq_none_iff] at h
  intro k hk
  have hl : k < (numBytes s).length := by rw [numBytes_length]; exact hk
  have := h _ (List.getElem_mem hl)
  rw [numBytes_getElem] at this
  exact (isDigit_iff _).1 (by simpa using this)

/-- Everything a command can raise: its error, and the index within its operand. -/
theorem checkOf_cases {i : Instr} {s : State} {e : ErrInfo} (h : checkOf i s = some e) :
    (i ∈ [Instr.nkEnc, .nkEncC, .pkEnc, .pkEncC] ∧ e = ⟨.lengthRange, .number, 0, .none⟩) ∨
    (i = .nkFromHex ∧ e = ⟨.lengthRange, .hex, 0, .none⟩) ∨
    (i ∈ [Instr.nkEncC, .ckEncC] ∧ ∃ k < 2, e = ⟨.invalidInput, .country, BitVec.ofNat 8 k, .none⟩) ∨
    (i ∈ [Instr.nkEncC, .pkEncC] ∧ numCount s ≤ s.cfg.numInMax ∧
      ∃ k < numCount s, e = ⟨.invalidInput, .number, BitVec.ofNat 8 k, .none⟩) ∨
    (i = .nkFromHex ∧ hexCount s ≤ s.cfg.hexInMax ∧ e = ⟨.formatError, .hex, 0, .empty⟩) ∨
    (i = .nkFromHex ∧ hexCount s ≤ s.cfg.hexInMax ∧ ∃ k < hexCount s, e = ⟨.formatError, .hex, BitVec.ofNat 8 k, .nonHex⟩) ∨
    (i = .nkFromHex ∧ hexCount s ≤ s.cfg.hexInMax ∧
      ∃ k < hexCount s, e = ⟨.formatError, .hex, BitVec.ofNat 8 k, .overflow⟩) := by
  cases i <;> simp only [checkOf, reduceCtorEq] at h
  case nkEnc => exact .inl ⟨by simp, checkNumLen_cases h⟩
  case pkEnc => exact .inl ⟨by simp, checkNumLen_cases h⟩
  case ckEncC => exact .inr (.inr (.inl ⟨by simp, checkCountry_cases h⟩))
  case pkEncC =>
    rcases orElse_cases h with h | ⟨h0, h⟩
    · exact .inl ⟨by simp, checkNumLen_cases h⟩
    · exact .inr (.inr (.inr (.inl ⟨by simp, checkNumLen_none h0, checkNumber_cases h⟩)))
  case nkEncC =>
    rcases orElse_cases h with h | ⟨h0, h⟩
    · exact .inl ⟨by simp, checkNumLen_cases h⟩
    rcases orElse_cases h with h | ⟨_, h⟩
    · exact .inr (.inr (.inl ⟨by simp, checkCountry_cases h⟩))
    · exact .inr (.inr (.inr (.inl ⟨by simp, checkNumLen_none h0, checkNumber_cases h⟩)))
  case nkFromHex =>
    rcases orElse_cases h with h | ⟨h0, h⟩
    · exact .inr (.inl ⟨rfl, checkHexLen_cases h⟩)
    rcases orElse_cases h with h | ⟨_, h⟩
    · exact .inr (.inr (.inr (.inr (.inl ⟨rfl, checkHexLen_none h0, checkHexEmpty_cases h⟩))))
    rcases orElse_cases h with h | ⟨_, h⟩
    · exact .inr (.inr (.inr (.inr (.inr (.inl ⟨rfl, checkHexLen_none h0, checkHexDigits_cases h⟩)))))
    · exact .inr (.inr (.inr (.inr (.inr (.inr ⟨rfl, checkHexLen_none h0, checkHexRange_cases h⟩)))))

end Sys2Proof.Machine
end

