-- ==== Sys2Proof/Laws/NumKey.lean ====
section
/-! SUPPORT. NK.ENC's value as the formula of the statements, the fields of a packed word, and the digits NK.DEC writes. -/

namespace Sys2Proof.Machine

/-! ### Exact integers under a shift or a field extraction -/

theorem shiftLeft_ofInt (x : Int) (k : Nat) : BitVec.ofInt 64 x <<< k = BitVec.ofInt 64 (x * 2 ^ k) := by
  rw [← BitVec.mul_twoPow_eq_shiftLeft, BitVec.ofInt_mul]
  congr 1
  apply BitVec.eq_of_toNat_eq
  rw [BitVec.toNat_twoPow, BitVec.toNat_ofInt]
  have h : (2 : Int) ^ k % ((2 ^ 64 : Nat) : Int) = ((2 ^ k % 2 ^ 64 : Nat) : Int) := by push_cast; rfl
  rw [h, Int.toNat_natCast]

/-- A field of a wrapped integer is the integer divided down and wrapped to the field's width. -/
theorem extract_ofInt (x : Int) (lo w : Nat) (h : lo + w ≤ 64) :
    (BitVec.ofInt 64 x).extractLsb' lo w = BitVec.ofInt w (x / 2 ^ lo) := by
  apply BitVec.eq_of_toNat_eq
  rw [field_toNat, BitVec.toNat_ofInt, BitVec.toNat_ofInt]
  apply Int.ofNat.inj
  have h0 : (0 : Int) ≤ x % ((2 ^ 64 : Nat) : Int) := Int.emod_nonneg _ (by norm_num)
  have h1 : (0 : Int) ≤ x / 2 ^ lo % ((2 ^ w : Nat) : Int) := Int.emod_nonneg _ (by positivity)
  have hs : ((2 ^ 64 : Nat) : Int) = 2 ^ lo * (2 ^ w * 2 ^ (64 - lo - w)) := by
    rw [← pow_add, ← pow_add, Nat.cast_pow]
    congr 1
    omega
  show (((x % ((2 ^ 64 : Nat) : Int)).toNat / 2 ^ lo % 2 ^ w : Nat) : Int) = ((x / 2 ^ lo % ((2 ^ w : Nat) : Int)).toNat : Int)
  rw [Int.toNat_of_nonneg h1, Int.natCast_mod, Int.natCast_ediv, Int.toNat_of_nonneg h0, hs, Nat.cast_pow, Nat.cast_pow, Nat.cast_ofNat]
  have hq : x % (2 ^ lo * (2 ^ w * 2 ^ (64 - lo - w))) / 2 ^ lo = x / 2 ^ lo % (2 ^ w * 2 ^ (64 - lo - w)) := by
    rw [Int.emod_def, Int.sub_ediv_of_dvd _ ((Dvd.intro _ rfl : (2 : Int) ^ lo ∣ _).mul_right _), Int.emod_def, Int.ediv_ediv_of_nonneg (by positivity)]
    congr 1
    rw [mul_assoc, Int.mul_ediv_cancel_left _ (by positivity)]
  rw [hq, Int.emod_emod_of_dvd _ (Dvd.intro _ rfl)]

/-! ### RES of NK.ENC -/

theorem widen_sub_ofInt (ext : ByteExt) (b : Byte) : widen ext b - 64 = BitVec.ofInt 64 (byteInt ext b - 64) := by
  rw [widen_eq_ofInt, Int.sub_eq_add_neg, BitVec.ofInt_add, BitVec.sub_eq_add_neg]
  rfl

theorem nkCountry_eq (ext : ByteExt) (c0 c1 : Byte) :
    nkCountry ext c0 c1 =
      BitVec.ofInt 64 ((byteInt ext c0 - 64) * 2 ^ 59) ||| BitVec.ofInt 64 ((byteInt ext c1 - 64) * 2 ^ 54) := by
  rw [nkCountry, widen_sub_ofInt, widen_sub_ofInt, shiftLeft_ofInt, shiftLeft_ofInt]

/-- The bytes NK.ENC keeps are a slice of NUM_IN (R72). -/
theorem nkKept_eq (s : State) :
    nkKept (numBytes s) =
      if s.sampled.numLen.toNat > 15 then numSlice s (s.sampled.numLen.toNat - 15) 15
      else numSlice s 0 s.sampled.numLen.toNat := by
  rw [nkKept, numBytes_length]
  by_cases h : 15 < numCount s
  · have h' : s.sampled.numLen.toNat > 15 := h
    rw [if_pos h, if_pos h', numBytes, numSlice, List.drop_take]
    congr 1
    simp only [numCount] at *
    omega
  · have h' : ¬ s.sampled.numLen.toNat > 15 := h
    rw [if_neg h, if_neg h', numBytes_eq_slice]
    rfl

theorem accumulate_nkKept (s : State) :
    accumulate s.cfg.byteExt (nkKept (numBytes s)) = BitVec.ofInt 64 (keptInt s) := by
  rw [accumulate_eq_ofInt, nkKept_eq, keptInt]
  split <;> rfl

theorem keptLen_le (s : State) : keptLen s ≤ 15 := by
  rw [keptLen]
  split <;> omega

theorem lenField_eq (s : State) : nkLenField (numCount s) &&& 0xF = BitVec.ofNat 64 (keptLen s) := by
  have h : nkLenField (numCount s) = BitVec.ofNat 64 (keptLen s) := by
    rw [nkLenField, keptLen, numCount]
    by_cases hc : 15 < s.sampled.numLen.toNat
    · rw [if_pos hc, if_pos hc]; rfl
    · rw [if_neg hc, if_neg hc]
  have hm : ∀ k ≤ 15, BitVec.ofNat 64 k &&& 0xF = BitVec.ofNat 64 k := by decide
  rw [h, hm _ (keptLen_le s)]

/-- RES of NK.ENC is the formula of the statements, on any bytes (R72, R80). -/
theorem nkEncode_eq (s : State) : nkEncode s = encodeFormula s := by
  rw [nkEncode, encodeFormula, nkCountry_eq, accumulate_nkKept, lenField_eq, shiftLeft_ofInt]

/-- A field of the formula is the OR of the fields of its four terms. -/
theorem formula_field (s : State) (lo w : Nat) (h : lo + w ≤ 64) :
    (encodeFormula s).extractLsb' lo w =
      (BitVec.ofInt w ((byteInt s.cfg.byteExt s.sampled.ctryIn[0] - 64) * 2 ^ 59 / 2 ^ lo)
        ||| BitVec.ofInt w ((byteInt s.cfg.byteExt s.sampled.ctryIn[1] - 64) * 2 ^ 54 / 2 ^ lo)
        ||| BitVec.ofInt w (keptInt s * 2 ^ 4 / 2 ^ lo)
        ||| BitVec.ofInt w ((keptLen s : Int) / 2 ^ lo)) := by
  have hl : BitVec.ofNat 64 (keptLen s) = BitVec.ofInt 64 (keptLen s : Int) := by
    apply BitVec.eq_of_toNat_eq
    simp
  rw [encodeFormula, hl, BitVec.extractLsb'_or, BitVec.extractLsb'_or, BitVec.extractLsb'_or, extract_ofInt _ _ _ h,
    extract_ofInt _ _ _ h, extract_ofInt _ _ _ h, extract_ofInt _ _ _ h]

theorem ofInt_mul_pow_eq_zero (w k : Nat) (x : Int) (h : w ≤ k) : BitVec.ofInt w (x * 2 ^ k) = 0#w := by
  apply BitVec.eq_of_toNat_eq
  rw [BitVec.toNat_ofInt]
  have : ((2 ^ w : Nat) : Int) ∣ x * 2 ^ k := by
    push_cast
    exact Dvd.dvd.mul_left (pow_dvd_pow 2 h) x
  rw [Int.emod_eq_zero_of_dvd this]
  simp

theorem mul_pow_ediv (x : Int) (a b : Nat) : x * 2 ^ (a + b) / 2 ^ a = x * 2 ^ b := by
  rw [pow_add, mul_comm (2 ^ a) (2 ^ b), ← mul_assoc, Int.mul_ediv_cancel _ (by positivity)]

theorem mul_pow_ediv_pow (x : Int) (a b : Nat) : x * 2 ^ a / 2 ^ (a + b) = x / 2 ^ b := by
  rw [pow_add, ← Int.ediv_ediv_of_nonneg (by positivity), Int.mul_ediv_cancel _ (by positivity)]

/-- Bits [63:54] of the formula (R80). -/
theorem formula_cc (s : State) :
    nkCc (encodeFormula s) =
      (BitVec.ofInt 10 ((byteInt s.cfg.byteExt s.sampled.ctryIn[0] - 64) * 2 ^ 5)
        ||| BitVec.ofInt 10 (byteInt s.cfg.byteExt s.sampled.ctryIn[1] - 64)
        ||| BitVec.ofInt 10 (keptInt s / 2 ^ 50)) := by
  have hk := keptLen_le s
  rw [nkCc, formula_field _ _ _ (by omega), mul_pow_ediv _ 54 5, mul_pow_ediv _ 54 0, mul_pow_ediv_pow _ 4 50]
  have : (keptLen s : Int) / 2 ^ 54 = 0 := by omega
  rw [this]
  simp

/-- Bits [53:4] of the formula (R80). -/
theorem formula_num (s : State) : nkNum (encodeFormula s) = BitVec.ofInt 50 (keptInt s) := by
  have hk := keptLen_le s
  rw [nkNum, formula_field _ _ _ (by omega), mul_pow_ediv _ 4 55, mul_pow_ediv _ 4 50, mul_pow_ediv _ 4 0,
    ofInt_mul_pow_eq_zero _ _ _ (by omega), ofInt_mul_pow_eq_zero _ _ _ (by omega)]
  have : (keptLen s : Int) / 2 ^ 4 = 0 := by omega
  rw [this]
  simp

/-- Bits [3:0] of the formula. -/
theorem formula_len (s : State) : (nkLen (encodeFormula s)).toNat = keptLen s := by
  have hk := keptLen_le s
  have e : nkLen (encodeFormula s) = BitVec.ofInt 4 (keptLen s : Int) := by
    rw [nkLen, formula_field _ _ _ (by omega)]
    simp only [pow_zero, Int.ediv_one]
    rw [ofInt_mul_pow_eq_zero _ _ _ (by omega), ofInt_mul_pow_eq_zero _ _ _ (by omega),
      ofInt_mul_pow_eq_zero _ _ _ (by omega)]
    simp
  rw [e, BitVec.toNat_ofInt]
  omega

/-! ### In-domain operands -/

theorem byteInt_of_lt (ext : ByteExt) (b : Byte) (h : b.toNat < 0x80) : byteInt ext b = b.toNat := by
  cases ext with
  | zext => rfl
  | sext =>
    rw [byteInt, BitVec.toInt_eq_toNat_of_lt]
    omega

/-- The bytes NK.ENC accumulates (R72). -/
def keptBytes (s : State) : List Byte :=
  if s.sampled.numLen.toNat > 15 then numSlice s (s.sampled.numLen.toNat - 15) 15
  else numSlice s 0 s.sampled.numLen.toNat

theorem keptBytes_digits {s : State} (h : NumberOk s) : ∀ b ∈ keptBytes s, Digit b := by
  rw [keptBytes]
  split
  · exact numSlice_digits s _ _ h (by omega)
  · exact numSlice_digits s _ _ h (by omega)

theorem keptBytes_length (s : State) : (keptBytes s).length ≤ 15 := by
  have hn := s.sampled.numLen.isLt
  rw [keptBytes]
  split
  · rw [numSlice_length _ _ _ (by omega)]
  · rw [numSlice_length _ _ _ (by omega)]
    omega

theorem keptInt_eq {s : State} (h : NumberOk s) : keptInt s = decimalNat (keptBytes s) := by
  rw [← decimalInt_eq_decimalNat s.cfg.byteExt _ (keptBytes_digits h), keptInt, keptBytes]
  split <;> rfl

theorem keptNat_lt {s : State} (h : NumberOk s) : decimalNat (keptBytes s) < 10 ^ 15 :=
  lt_of_lt_of_le (decimalNat_lt _ (keptBytes_digits h)) (Nat.pow_le_pow_right (by norm_num) (keptBytes_length s))

/-- In domain nothing spills: every field reads back (R57, R76, R77). -/
theorem formula_in_domain {s : State} (hc : CountryOk s) (hn : NumberOk s) :
    (nkL1 (encodeFormula s)).toNat = s.sampled.ctryIn[0].toNat - 64 ∧
      (nkL2 (encodeFormula s)).toNat = s.sampled.ctryIn[1].toNat - 64 ∧
      (nkCc (encodeFormula s)).toNat = (s.sampled.ctryIn[0].toNat - 64) * 32 + (s.sampled.ctryIn[1].toNat - 64) ∧
      (nkNum (encodeFormula s)).toNat = decimalNat (keptBytes s) ∧
      (nkLen (encodeFormula s)).toNat = keptLen s := by
  obtain ⟨⟨h0l, h0u⟩, h1l, h1u⟩ := hc
  have hv := keptNat_lt hn
  have hcc : (nkCc (encodeFormula s)).toNat =
      (s.sampled.ctryIn[0].toNat - 64) * 32 + (s.sampled.ctryIn[1].toNat - 64) := by
    rw [formula_cc, keptInt_eq hn, byteInt_of_lt _ _ (by omega), byteInt_of_lt _ _ (by omega)]
    have hz : ((decimalNat (keptBytes s) : Nat) : Int) / 2 ^ 50 = 0 := by omega
    rw [hz, BitVec.toNat_or, BitVec.toNat_or, BitVec.toNat_ofInt, BitVec.toNat_ofInt, BitVec.toNat_ofInt]
    have e0 : ((((s.sampled.ctryIn[0].toNat : Int) - 64) * 2 ^ 5) % ((2 ^ 10 : Nat) : Int)).toNat =
        (s.sampled.ctryIn[0].toNat - 64) <<< 5 := by rw [Nat.shiftLeft_eq]; omega
    have e1 : (((s.sampled.ctryIn[1].toNat : Int) - 64) % ((2 ^ 10 : Nat) : Int)).toNat =
        s.sampled.ctryIn[1].toNat - 64 := by omega
    rw [e0, e1, ← Nat.shiftLeft_add_eq_or_of_lt (by omega), Nat.shiftLeft_eq]
    simp
  have hcc' := hcc
  rw [nkCc, field_toNat] at hcc'
  have hlt := (encodeFormula s).isLt
  refine ⟨?_, ?_, hcc, ?_, formula_len s⟩
  · rw [nkL1, field_toNat]; omega
  · rw [nkL2, field_toNat]; omega
  · rw [formula_num, keptInt_eq hn, BitVec.toNat_ofInt]; omega

/-- Every word is the sum of its four fields (R57). -/
theorem word_of_fields (a : Word) :
    a.toNat = (nkL1 a).toNat * 2 ^ 59 + (nkL2 a).toNat * 2 ^ 54 + (nkNum a).toNat * 2 ^ 4 + (nkLen a).toNat := by
  have := a.isLt
  rw [nkL1, nkL2, nkNum, nkLen, field_toNat, field_toNat, field_toNat, field_toNat]
  omega

/-! ### The digits of NK.DEC -/

theorem decimalDigits_length (size m : Nat) : (decimalDigits size m).length = size := by
  induction size generalizing m with
  | zero => rfl
  | succ n ih => rw [decimalDigits, List.length_append, ih]; rfl

/-- Digit `k` of `size` digits is the one of weight 10^(size−1−k). -/
theorem decimalDigits_getElem (size m k : Nat) (h : k < (decimalDigits size m).length) :
    ((decimalDigits size m)[k]).toNat = 0x30 + m / 10 ^ (size - 1 - k) % 10 := by
  induction size generalizing m with
  | zero => simp [decimalDigits] at h
  | succ n ih =>
    rw [decimalDigits_length] at h
    by_cases hk : k < n
    · have hk' : k < (decimalDigits n (m / 10)).length := by rw [decimalDigits_length]; exact hk
      simp only [decimalDigits]
      rw [List.getElem_append_left hk', ih _ hk', Nat.div_div_eq_div_mul, ← pow_succ']
      congr 4
      omega
    · obtain rfl : k = n := by omega
      simp only [decimalDigits]
      rw [List.getElem_append_right (by rw [decimalDigits_length])]
      simp
      omega

/-- The decimal digits of the value of a digit string are the string, leading zeros included (R74, R76). -/
theorem decimalDigits_decimalNat (l : List Byte) (h : ∀ b ∈ l, Digit b) : decimalDigits l.length (decimalNat l) = l := by
  induction l using List.reverseRecOn with
  | nil => rfl
  | append_singleton bs b ih =>
    have hb : Digit b := h b (by simp)
    have hd : decimalNat (bs ++ [b]) = decimalNat bs * 10 + (b.toNat - 48) := by
      clear ih h
      induction bs with
      | nil => simp [decimalNat]
      | cons c cs ih =>
        rw [List.cons_append, decimalNat, ih, decimalNat, List.length_append, List.length_singleton, pow_succ]
        ring
    obtain ⟨hl, hu⟩ := hb
    rw [List.length_append, List.length_singleton, decimalDigits, hd]
    have h1 : (decimalNat bs * 10 + (b.toNat - 48)) / 10 = decimalNat bs := by omega
    have h2 : BitVec.ofNat 8 (0x30 + (decimalNat bs * 10 + (b.toNat - 48)) % 10) = b := by
      apply BitVec.eq_of_toNat_eq
      rw [BitVec.toNat_ofNat]
      omega
    rw [h1, h2, ih fun c hc => h c (by simp [hc])]

/-! ### The fields NK.DEC and NK.CMPC read -/

theorem nkLen_toNat (a : Word) : (nkLen a).toNat = a.toNat % 16 := by
  rw [nkLen, field_toNat]
  simp

theorem nkNum_toNat (a : Word) : (nkNum a).toNat = a.toNat / 16 % 2 ^ 50 := by
  rw [nkNum, field_toNat]
  norm_num

theorem nkCc_toNat (a : Word) : (nkCc a).toNat = a.toNat / 2 ^ 54 := by
  have := a.isLt
  rw [nkCc, field_toNat]
  omega

theorem nkLetter_toNat (l : BitVec 5) : (nkLetter l).toNat = l.toNat + 64 := by
  have := l.isLt
  rw [nkLetter, BitVec.toNat_add, BitVec.toNat_setWidth]
  simp
  omega

theorem nkLetter_eq {c : Byte} (h : Upper c) {l : BitVec 5} (hl : l.toNat = c.toNat - 64) : nkLetter l = c := by
  apply BitVec.eq_of_toNat_eq
  rw [nkLetter_toNat, hl]
  have := h.1
  omega

/-- Byte `k` of NUM_OUT after NK.DEC (R74). -/
theorem nkDecode_numOut (a : Word) (k : Nat) (hk : k < 15) :
    (nkDecode a).numOut[k] = (decimalDigits (nkLen a).toNat (nkNum a).toNat).getD k 0 := by
  simp [nkDecode]

theorem nkDecode_numOut_digit (a : Word) (k : Nat) (hk : k < 15) (hl : k < (nkLen a).toNat) :
    ((nkDecode a).numOut[k]).toNat = 0x30 + (nkNum a).toNat / 10 ^ ((nkLen a).toNat - 1 - k) % 10 := by
  have h : k < (decimalDigits (nkLen a).toNat (nkNum a).toNat).length := by rw [decimalDigits_length]; exact hl
  rw [nkDecode_numOut, List.getD_eq_getElem _ _ h, decimalDigits_getElem]

theorem nkDecode_numOut_rest (a : Word) (k : Nat) (hk : k < 15) (hl : (nkLen a).toNat ≤ k) :
    (nkDecode a).numOut[k] = 0 := by
  rw [nkDecode_numOut, List.getD_eq_default _ _ (by rw [decimalDigits_length]; exact hl)]

/-- A length field of 0 decodes to the empty number (R78). -/
theorem nkDecode_numOut_empty (a : Word) (h : (nkLen a).toNat = 0) : (nkDecode a).numOut = Results.zero.numOut := by
  ext k hk
  rw [nkDecode_numOut_rest a k hk (by omega)]
  simp [Results.zero]

/-- RES of NK.CMPC by the numbers of bits [63:54] (R75). -/
theorem nkCompare_eq (a b : Word) :
    nkCompare a b =
      if (nkCc a).toNat < (nkCc b).toNat then -1 else if (nkCc a).toNat = (nkCc b).toNat then 0 else 1 := by
  have h : nkCc a = nkCc b ↔ (nkCc a).toNat = (nkCc b).toNat := ⟨congrArg _, BitVec.eq_of_toNat_eq⟩
  simp only [nkCompare, h]

theorem country_ext {x y : Vector Byte 2} (h0 : x[0] = y[0]) (h1 : x[1] = y[1]) : x = y := by
  ext k hk
  have h : k = 0 ∨ k = 1 := by omega
  rcases h with rfl | rfl
  · rw [h0]
  · rw [h1]

end Sys2Proof.Machine
end

