-- ==== Sys2Proof/Laws/Keys.lean ====
section
/-! SUPPORT. RES of PK.ENC and of CK.ENC as the formulas of the statements. -/

namespace Sys2Proof.Machine

/-! ### PrefixKey -/

theorem padDigits_ofInt (k : Nat) (x : Int) : padDigits k (BitVec.ofInt 64 x) = BitVec.ofInt 64 (x * 10 ^ k) := by
  induction k generalizing x with
  | zero => simp [padDigits]
  | succ k ih =>
    have h : BitVec.ofInt 64 x * 10 = BitVec.ofInt 64 (x * 10) := by rw [BitVec.ofInt_mul]; rfl
    rw [padDigits, h, ih, pow_succ']
    congr 1
    ring

/-- RES of PK.ENC is the formula of the statements, on any bytes (R100). -/
theorem pkEncode_eq (s : State) : pkEncode s = prefixFormula s := by
  have h : (numBytes s).take 15 = numSlice s 0 (min s.sampled.numLen.toNat 15) := by
    rw [numBytes, numSlice, List.take_take, List.drop_zero, Nat.min_comm]
    rfl
  rw [pkEncode, h, accumulate_eq_ofInt, padDigits_ofInt]
  rfl

theorem decimalNat_append_zeros (l : List Byte) (k : Nat) :
    decimalNat (l ++ List.replicate k 0x30) = decimalNat l * 10 ^ k := by
  have hz : decimalNat (List.replicate k (0x30 : Byte)) = 0 := by
    induction k with
    | zero => rfl
    | succ k ih => rw [List.replicate_succ, decimalNat, ih]; simp
  induction l with
  | nil => rw [List.nil_append, hz, decimalNat]; simp
  | cons b bs ih =>
    rw [List.cons_append, decimalNat, decimalNat, ih, List.length_append, List.length_replicate, pow_add]
    ring

theorem decimalInt_append_zeros (ext : ByteExt) (l : List Byte) (k : Nat) :
    decimalInt ext (l ++ List.replicate k 0x30) = decimalInt ext l * 10 ^ k := by
  have hb : byteInt ext 0x30 = 48 := by cases ext <;> rfl
  have hz : decimalInt ext (List.replicate k (0x30 : Byte)) = 0 := by
    induction k with
    | zero => rfl
    | succ k ih => rw [List.replicate_succ, decimalInt, ih, hb]; simp
  induction l with
  | nil => rw [List.nil_append, hz, decimalInt]; simp
  | cons b bs ih =>
    rw [List.cons_append, decimalInt, decimalInt, ih, List.length_append, List.length_replicate, pow_add]
    ring

/-! ### CountryKey -/

/-- RES of CK.ENC (R110), on any two bytes under either BYTE_EXT. -/
theorem ckEncode_toNat (s : State) : (ckEncode s).toNat = countryKeyFormula s := by
  have h0 := s.sampled.ctryIn[0].isLt
  have h1 := s.sampled.ctryIn[1].isLt
  have key : ∀ (e : ByteExt) (c0 c1 : Byte),
      ((((widen e c0 <<< 8) ||| widen e c1).setWidth 16).setWidth 64).toNat =
        if e = .sext ∧ 0x80 ≤ c1.toNat then 0xFF00 + c1.toNat else c0.toNat * 256 + c1.toNat := by
    intro e c0 c1
    have hc0 := c0.isLt
    have hc1 := c1.isLt
    have hs : ((((widen e c0 <<< 8) ||| widen e c1).setWidth 16).setWidth 64).toNat =
        ((c0.toNat <<< 8) ||| ((widen e c1).toNat % 2 ^ 16)) := by
      have hw : (widen e c0).toNat % 2 ^ 8 = c0.toNat := by
        rw [widen_eq_ofInt, BitVec.toNat_ofInt]
        cases e with
        | zext => simp only [byteInt]; omega
        | sext => simp only [byteInt, BitVec.toInt_eq_toNat_cond]; split <;> omega
      rw [BitVec.toNat_setWidth, BitVec.toNat_setWidth, BitVec.toNat_or, BitVec.toNat_shiftLeft, Nat.or_mod_two_pow]
      rw [Nat.shiftLeft_eq, Nat.shiftLeft_eq]
      have : (widen e c0).toNat * 2 ^ 8 % 2 ^ 64 % 2 ^ 16 = c0.toNat * 2 ^ 8 := by omega
      rw [this]
      apply Nat.mod_eq_of_lt
      apply Nat.lt_of_lt_of_le (Nat.or_lt_two_pow (n := 16) (by omega) (by omega)) (by norm_num)
    rw [hs]
    have hlow : c1.toNat < 2 ^ 8 := hc1
    cases e with
    | zext =>
      have : (widen .zext c1).toNat % 2 ^ 16 = c1.toNat := by
        rw [widen_eq_ofInt, BitVec.toNat_ofInt]; simp only [byteInt]; omega
      rw [this, ← Nat.shiftLeft_add_eq_or_of_lt hlow, Nat.shiftLeft_eq]
      simp
    | sext =>
      by_cases hc : 0x80 ≤ c1.toNat
      · have : (widen .sext c1).toNat % 2 ^ 16 = (0xFF <<< 8) ||| c1.toNat := by
          rw [← Nat.shiftLeft_add_eq_or_of_lt hlow, Nat.shiftLeft_eq, widen_eq_ofInt, BitVec.toNat_ofInt]
          simp only [byteInt, BitVec.toInt_eq_toNat_cond]
          split <;> omega
        have hor : ∀ c : Byte, c.toNat ||| 0xFF = 0xFF := by decide
        rw [this, ← Nat.or_assoc, ← Nat.shiftLeft_or_distrib, hor, ← Nat.shiftLeft_add_eq_or_of_lt hlow, Nat.shiftLeft_eq,
          if_pos ⟨rfl, hc⟩]
      · have : (widen .sext c1).toNat % 2 ^ 16 = c1.toNat := by
          rw [widen_eq_ofInt, BitVec.toNat_ofInt]
          simp only [byteInt, BitVec.toInt_eq_toNat_cond]
          split <;> omega
        rw [this, ← Nat.shiftLeft_add_eq_or_of_lt hlow, Nat.shiftLeft_eq, if_neg (by tauto)]
  exact key _ _ _

end Sys2Proof.Machine
end

