-- ==== Sys2Proof/Laws/PerInstr.lean ====
section
/-! SUPPORT. The statements made per command: its word is the table's, well-formed, and decodes to it alone. -/

namespace Sys2Proof.Laws

/-- The word of a command is legal (R50 to R52), is its row's word (R53), and no other word decodes to it (R54). -/
def CommandWord.Statement (i : Instr) : Prop :=
  (cmdFieldsOf i).wf = true ∧ encode i = Machine.cmdWord i ∧ ∀ w : Byte, decode w = .ok i ↔ w = encode i

theorem CommandWord.nkEnc : CommandWord.Statement .nkEnc := ⟨rfl, rfl, by decide⟩
theorem CommandWord.nkEncC : CommandWord.Statement .nkEncC := ⟨rfl, rfl, by decide⟩
theorem CommandWord.nkDec : CommandWord.Statement .nkDec := ⟨rfl, rfl, by decide⟩
theorem CommandWord.nkCmpc : CommandWord.Statement .nkCmpc := ⟨rfl, rfl, by decide⟩
theorem CommandWord.nkToHex : CommandWord.Statement .nkToHex := ⟨rfl, rfl, by decide⟩
theorem CommandWord.nkFromHex : CommandWord.Statement .nkFromHex := ⟨rfl, rfl, by decide⟩
theorem CommandWord.pkEnc : CommandWord.Statement .pkEnc := ⟨rfl, rfl, by decide⟩
theorem CommandWord.pkEncC : CommandWord.Statement .pkEncC := ⟨rfl, rfl, by decide⟩
theorem CommandWord.ckEnc : CommandWord.Statement .ckEnc := ⟨rfl, rfl, by decide⟩
theorem CommandWord.ckEncC : CommandWord.Statement .ckEncC := ⟨rfl, rfl, by decide⟩
theorem CommandWord.ckDec : CommandWord.Statement .ckDec := ⟨rfl, rfl, by decide⟩

end Sys2Proof.Laws
end

