-- ==== Sys2Proof/Laws/Step.lean ====
section
/-! SUPPORT. What a step and a clock edge do, one lemma per case, so that no proof unfolds `step`, `transact` or `clockEdge`. -/

namespace Sys2Proof.Machine

theorem runSampled_completes (s : State) : ∃ t, runSampled s = .next t := by
  rcases runSampled_cases s with ⟨_, _, _, h⟩ | ⟨_, _, _, _, h⟩ | ⟨_, _, h⟩ <;> exact ⟨_, h⟩

/-- Every completion returns to IDLE, raises DONE and keeps the parameters, the sampled ports and the coming actions. -/
theorem runSampled_finished {s t : State} (h : runSampled s = .next t) : Finished s t := by
  rcases runSampled_cases s with ⟨_, _, _, h'⟩ | ⟨_, _, _, _, h'⟩ | ⟨_, _, h'⟩ <;>
    (rw [h'] at h; cases h; exact ⟨rfl, rfl, rfl, rfl, rfl⟩)

theorem checkOf_phase (i : Instr) (s : State) (ph : Phase) : checkOf i { s with phase := ph } = checkOf i s := by
  cases i <;> rfl

theorem resultsOf_phase (i : Instr) (s : State) (ph : Phase) : resultsOf i { s with phase := ph } = resultsOf i s := by
  cases i <;> rfl

/-- A command does not depend on the phase it completes in. -/
theorem exec_phase (i : Instr) (s : State) (ph : Phase) : exec i { s with phase := ph } = exec i s := by
  rw [exec_eq_finish, exec_eq_finish, checkOf_phase, resultsOf_phase]
  cases checkOf i s <;> rfl

theorem runSampled_phase (s : State) (ph : Phase) : runSampled { s with phase := ph } = runSampled s := by
  cases h : decode s.sampled.cmd with
  | error e => rw [runSampled_of_illegal h, runSampled_of_illegal (s := { s with phase := ph }) h]; rfl
  | ok i => rw [runSampled_of_decode h, runSampled_of_decode (s := { s with phase := ph }) h, exec_phase]

/-! ### The atomic step -/

theorem step_busy {s : State} {n : Nat} (h : s.phase = .busy n) : step s = runSampled s := by
  unfold step
  rw [h]

theorem step_silent {s : State} (hp : s.phase = .idle) (hr : s.requests = []) :
    step s = .fault .hostPresentsNothing := by
  unfold step
  rw [hp, hr]

theorem step_request {s : State} {act : HostAction} {rest : List HostAction} (hp : s.phase = .idle)
    (hr : s.requests = act :: rest) : step s = transact act { s with requests := rest } := by
  unfold step
  rw [hp, hr]

theorem transact_completes (act : HostAction) (s : State) : ∃ t, transact act s = .next t := by
  cases act with
  | command p => exact runSampled_completes _
  | idle => exact ⟨_, rfl⟩
  | reset => exact ⟨_, rfl⟩
  | abort p => exact ⟨_, rfl⟩

theorem phase_cases (s : State) : (∃ n, s.phase = .busy n) ∨ s.phase = .idle := by
  cases s.phase with
  | idle => exact .inr rfl
  | busy n => exact .inl ⟨n, rfl⟩

/-- Everything a step that answers a next state can be. -/
theorem step_cases {s t : State} (h : step s = .next t) :
    (∃ n, s.phase = .busy n ∧ runSampled s = .next t) ∨
    (s.phase = .idle ∧ ∃ p rest, s.requests = .command p :: rest ∧
      runSampled (accept p { s with requests := rest }) = .next t) ∨
    (s.phase = .idle ∧ ∃ rest, s.requests = .idle :: rest ∧ t = idleEdge { s with requests := rest }) ∨
    (s.phase = .idle ∧ ∃ rest, s.requests = .reset :: rest ∧ t = resetOp { s with requests := rest }) ∨
    (s.phase = .idle ∧ ∃ p rest, s.requests = .abort p :: rest ∧ t = resetOp { s with requests := rest }) := by
  rcases phase_cases s with ⟨n, hp⟩ | hp
  · exact .inl ⟨n, hp, by rw [← step_busy hp]; exact h⟩
  · cases hr : s.requests with
    | nil => rw [step_silent hp hr] at h; cases h
    | cons act rest =>
      rw [step_request hp hr] at h
      cases act with
      | command p => exact .inr (.inl ⟨hp, p, rest, rfl, h⟩)
      | idle => cases h; exact .inr (.inr (.inl ⟨hp, rest, rfl, rfl⟩))
      | reset => cases h; exact .inr (.inr (.inr (.inl ⟨hp, rest, rfl, rfl⟩)))
      | abort p => cases h; exact .inr (.inr (.inr (.inr ⟨hp, p, rest, rfl, rfl⟩)))

/-! ### The clock edge -/

theorem clockEdge_reset {s : State} {pins : Pins} (h : pins.rst = true) : clockEdge pins s = .next (resetOp s) := by
  rw [clockEdge, if_pos h]

theorem clockEdge_accept {s : State} {pins : Pins} (hr : pins.rst = false) (hv : pins.cmdValid = true)
    (hp : s.phase = .idle) : clockEdge pins s = .next (accept pins.ports s) := by
  simp [clockEdge, cmdReady, hr, hv, hp]

theorem clockEdge_idle {s : State} {pins : Pins} (hr : pins.rst = false) (hv : pins.cmdValid = false)
    (hp : s.phase = .idle) : clockEdge pins s = .next (idleEdge s) := by
  simp [clockEdge, hr, hv, hp]

theorem clockEdge_complete {s : State} {pins : Pins} (hr : pins.rst = false) (hp : s.phase = .busy 0) :
    clockEdge pins s = runSampled s := by
  simp [clockEdge, hr, hp]

theorem clockEdge_wait {s : State} {pins : Pins} {n : Nat} (hr : pins.rst = false) (hp : s.phase = .busy (n + 1)) :
    clockEdge pins s = .next { s with phase := .busy n, done := false } := by
  simp [clockEdge, hr, hp]

theorem clockEdge_completes (pins : Pins) (s : State) : ∃ t, clockEdge pins s = .next t := by
  cases hr : pins.rst with
  | true => exact ⟨_, clockEdge_reset hr⟩
  | false =>
    cases hp : s.phase with
    | idle =>
      cases hv : pins.cmdValid with
      | true => exact ⟨_, clockEdge_accept hr hv hp⟩
      | false => exact ⟨_, clockEdge_idle hr hv hp⟩
    | busy n =>
      cases n with
      | zero => rw [clockEdge_complete hr hp]; exact runSampled_completes s
      | succ n => exact ⟨_, clockEdge_wait hr hp⟩

theorem runEdges_cons {s t : State} {pins : Pins} {rest : List Pins} (h : clockEdge pins s = .next t) :
    runEdges (pins :: rest) s = runEdges rest t := by
  rw [runEdges, h]

end Sys2Proof.Machine
end

