-- ==== Sys2Proof/Tests/Slice0.lean ====
section
/-! SUPPORT. Tests: the ill-formed terms each check refuses, the words of 30_encoding.md, a few vectors of 95_test_vectors.md, one step each, and a witness for the
hypotheses of every statement. -/

namespace Sys2Proof.Tests

open Sys2Proof.Machine

/-! ### Well-formedness: an ill-formed term for each check -/

theorem test_rsv_refused : CmdFields.wf ⟨0b001, false, 0x1⟩ = false := by decide
theorem test_op_zero_refused : CmdFields.wf ⟨0b000, false, 0x0⟩ = false := by decide
theorem test_op_nine_refused : CmdFields.wf ⟨0b000, false, 0x9⟩ = false := by decide
theorem test_chk_decode_refused : CmdFields.wf ⟨0b000, true, 0x2⟩ = false := by decide
theorem test_chk_encode_accepted : CmdFields.wf ⟨0b000, true, 0x7⟩ = true := by decide
theorem test_num_capacity_refused : Config.wf ⟨15, 16, .zext⟩ = false := by decide
theorem test_hex_capacity_refused : Config.wf ⟨32, 256, .sext⟩ = false := by decide
theorem test_default_accepted : Config.wf Config.default = true := by decide

/-! ### Decoding: RSV, CHK, OP of R53 written out bit by bit -/

theorem test_decode_nkEnc : decode 0b000_0_0001#8 = .ok .nkEnc := by decide
theorem test_decode_nkEncC : decode 0b000_1_0001#8 = .ok .nkEncC := by decide
theorem test_decode_nkDec : decode 0b000_0_0010#8 = .ok .nkDec := by decide
theorem test_decode_nkCmpc : decode 0b000_0_0011#8 = .ok .nkCmpc := by decide
theorem test_decode_nkToHex : decode 0b000_0_0100#8 = .ok .nkToHex := by decide
theorem test_decode_nkFromHex : decode 0b000_0_0101#8 = .ok .nkFromHex := by decide
theorem test_decode_pkEnc : decode 0b000_0_0110#8 = .ok .pkEnc := by decide
theorem test_decode_pkEncC : decode 0b000_1_0110#8 = .ok .pkEncC := by decide
theorem test_decode_ckEnc : decode 0b000_0_0111#8 = .ok .ckEnc := by decide
theorem test_decode_ckEncC : decode 0b000_1_0111#8 = .ok .ckEncC := by decide
theorem test_decode_ckDec : decode 0b000_0_1000#8 = .ok .ckDec := by decide

/-- R55: the three kinds of illegal words; 95_test_vectors.md 2.12. -/
theorem test_illegal_kinds :
    ∀ w : Byte, (decode w = .error .reservedBits ↔ 32 ≤ w.toNat) ∧
      (decode w = .error .reservedOp ↔ w.toNat < 32 ∧ (w.toNat % 16 = 0 ∨ 9 ≤ w.toNat % 16)) ∧
      (decode w = .error .checkNotAllowed ↔ w ∈ [0x12#8, 0x13#8, 0x14#8, 0x15#8, 0x18#8]) := by decide

/-! ### One step on the vectors of 95_test_vectors.md -/

/-- The bytes of an array port, zeros after them. -/
def bytes (l : List Byte) : Vector Byte 255 :=
  ⟨((l ++ List.replicate 255 0).take 255).toArray, by
    rw [List.size_toArray, List.length_take, List.length_append, List.length_replicate]; omega⟩

/-- Ports with a country, a number and its length. -/
def numPorts (cmd : Byte) (c0 c1 : Byte) (num : List Byte) : Ports :=
  { Ports.zero with cmd := cmd, ctryIn := #v[c0, c1], numIn := bytes num, numLen := BitVec.ofNat 8 num.length }

/-- Ports with a hex text and its length. -/
def hexPorts (text : List Byte) : Ports :=
  { Ports.zero with cmd := 0x05, hexIn := bytes text, hexLen := BitVec.ofNat 8 text.length }

/-- Ports with the two keys. -/
def keyPorts (cmd : Byte) (a b : Word) : Ports := { Ports.zero with cmd := cmd, a := a, b := b }

/-- The reset state with these parameters, the host about to present these ports. -/
def ready (c : Config) (p : Ports) : State := { State.reset with cfg := c, requests := [.command p] }

/-- A field of the state after the first command after reset. -/
def after {α : Type} (c : Config) (p : Ports) (f : State → α) : Option α :=
  match step (ready c p) with
  | .next t => some (f t)
  | .fault _ => none
  | .refused _ => none

/-- RES and STATUS. -/
def resStatus (t : State) : Word × BitVec 32 := (t.results.res, t.status)

def sextConfig : Config := ⟨32, 16, .sext⟩
def wideHexConfig : Config := ⟨32, 32, .zext⟩

-- "1234567890123456", 16 digits
def sixteen : List Byte :=
  [0x31, 0x32, 0x33, 0x34, 0x35, 0x36, 0x37, 0x38, 0x39, 0x30, 0x31, 0x32, 0x33, 0x34, 0x35, 0x36]

-- "447700900123"
def mobile : List Byte := [0x34, 0x34, 0x37, 0x37, 0x30, 0x30, 0x39, 0x30, 0x30, 0x31, 0x32, 0x33]

-- 2.1: "IT", 16 digits, lossy
theorem test_nkEnc_lossy :
    after .default (numPorts 0x01 0x49 0x54 sixteen) resStatus = some (0x4D0D_5569_7C43_AC00, 0x0102_0000) := by decide
-- 2.1: "GB", "1\xff" under SEXT
theorem test_nkEnc_sext :
    after sextConfig (numPorts 0x01 0x47 0x42 [0x31, 0xFF]) resStatus = some (0xFFFF_FFFF_FFFF_FD92, 0x0102_0000) := by
  decide
-- 2.2: "GB", "447700900123"
theorem test_nkEncC_value :
    after .default (numPorts 0x11 0x47 0x42 mobile) resStatus = some (0x3880_0683_D0D9_91BC, 0x1102_0000) := by decide
-- 2.2: "G1", "x": country before number
theorem test_nkEncC_country_first :
    after .default (numPorts 0x11 0x47 0x31 [0x78]) resStatus = some (0, 0x1103_0113) := by decide
-- 2.3: all ones: "__", 15 digits of a 16-digit value
theorem test_nkDec_all_ones :
    after .default (keyPorts 0x02 0xFFFF_FFFF_FFFF_FFFF 0)
      (fun t => (t.results.ctryOut.toList, t.results.numOut.toList, t.results.numOutLen)) =
    some ([0x5F, 0x5F], [0x31, 0x32, 0x35, 0x38, 0x39, 0x39, 0x39, 0x30, 0x36, 0x38, 0x34, 0x32, 0x36, 0x32, 0x33], 15) := by
  decide
-- 2.3: NUM = 12345 with LEN = 3: the low 3 digits
theorem test_nkDec_low_digits :
    after .default (keyPorts 0x02 0x0000_0000_0003_0393 0) (fun t => (t.results.numOut.toList.take 4, t.status)) =
    some ([0x33, 0x34, 0x35, 0x00], 0x0202_0000) := by decide
-- 2.4: "AD" before "ZZ"
theorem test_nkCmpc_less :
    after .default (keyPorts 0x03 0x0900_0000_0000_0011 0xD680_0000_0000_0011) resStatus =
    some (0xFFFF_FFFF_FFFF_FFFF, 0x0302_0000) := by decide
-- 2.4: unsigned
theorem test_nkCmpc_unsigned :
    after .default (keyPorts 0x03 0x8000_0000_0000_0000 0x1) resStatus = some (1, 0x0302_0000) := by decide
-- 2.5
theorem test_nkToHex_all_digits :
    after .default (keyPorts 0x04 0x0123_4567_89AB_CDEF 0) (fun t => t.results.hexOut.toList) =
    some [0x30, 0x31, 0x32, 0x33, 0x34, 0x35, 0x36, 0x37, 0x38, 0x39, 0x61, 0x62, 0x63, 0x64, 0x65, 0x66] := by decide
-- 2.6: OVERFLOW at index 16 with HEX_IN_MAX = 32
theorem test_nkFromHex_overflow :
    after wideHexConfig (hexPorts (0x31 :: List.replicate 16 0x30)) resStatus = some (0, 0x0503_10F4) := by decide
-- 2.6: "ABCDEF"
theorem test_nkFromHex_upper :
    after .default (hexPorts [0x41, 0x42, 0x43, 0x44, 0x45, 0x46]) resStatus = some (0xABCDEF, 0x0502_0000) := by decide
-- 2.7: "/" wraps
theorem test_pkEnc_wrap :
    after .default (numPorts 0x06 0 0 [0x2F]) resStatus = some (0xFFFF_A50C_EF85_C000, 0x0602_0000) := by decide
-- 2.7: "0123"
theorem test_pkEnc_leading_zero :
    after .default (numPorts 0x06 0 0 [0x30, 0x31, 0x32, 0x33]) resStatus = some (0x0000_0B2F_D121_7800, 0x0602_0000) := by
  decide
-- 2.8: a bad byte past the first 15
theorem test_pkEncC_late_byte :
    after .default (numPorts 0x16 0 0 (sixteen ++ [0x78])) resStatus = some (0, 0x1603_1023) := by decide
-- 2.8
theorem test_pkEncC_truncates :
    after .default (numPorts 0x16 0 0 (sixteen ++ [0x37, 0x38, 0x39])) resStatus = some (0x0000_7048_860D_DF79, 0x1602_0000) := by
  decide
-- 2.9: "\x00\x80" under both widenings
theorem test_ckEnc_zext : after .default (numPorts 0x07 0x00 0x80 []) resStatus = some (0x0080, 0x0702_0000) := by decide
theorem test_ckEnc_sext : after sextConfig (numPorts 0x07 0x00 0x80 []) resStatus = some (0xFF80, 0x0702_0000) := by decide
-- 2.10
theorem test_ckEncC_value : after .default (numPorts 0x17 0x47 0x42 []) resStatus = some (0x4742, 0x1702_0000) := by decide
theorem test_ckEncC_second : after .default (numPorts 0x17 0x47 0x31 []) resStatus = some (0, 0x1703_0113) := by decide
-- 2.11: A[63:16] ignored
theorem test_ckDec_low_bits :
    after .default (keyPorts 0x08 0xFFFF_FFFF_FFFF_4742 0) (fun t => (t.results.ctryOut.toList, t.status)) =
    some ([0x47, 0x42], 0x0802_0000) := by decide
-- 2.12: CHK with NK.DEC, on operands that would be errors too
theorem test_illegal_word :
    after .default { numPorts 0x12 0 0 [] with numLen := 255 } resStatus = some (0, 0x1203_0001) := by decide
-- A placed word runs as the first command after reset.
theorem test_placed_word :
    (match step (State.reset.withFetchWord 8 0x04) with
      | .next t => some (t.results.hexOut.toList, t.status)
      | .fault _ => none
      | .refused _ => none) = some (List.replicate 16 0x30, 0x0402_0000#32) := by decide

/-! ### Witnesses: for each statement with hypotheses a state and operands that meet them together, one for each of its clauses -/

/-- The reset state with these parameters, about to run the command sampled from these ports. -/
def inFlight (c : Config) (p : Ports) : State := { State.reset with cfg := c, sampled := p }

/-- An idle reset state whose host plans these actions. -/
def planned (l : List HostAction) : State := { State.reset with requests := l }

/-- A state that an NK.ENC.C of "G1" has left: ERR = 3 and SERR = 1. -/
def afterError : State := { State.reset with status := 0x1103_0113, done := true, sampled := numPorts 0x11 0x47 0x31 [0x78] }

def gb (num : List Byte) : State := inFlight .default (numPorts 0x11 0x47 0x42 num)
def nines : List Byte := List.replicate 15 0x39
def zeros (n : Nat) : List Byte := List.replicate n 0x30
def hexText (text : List Byte) : State := inFlight wideHexConfig (hexPorts text)
def noPins : Pins := ⟨false, false, Ports.zero⟩
def commandPins : Pins := ⟨false, true, keyPorts 0x04 0 0⟩
def resetPins : Pins := ⟨true, true, Ports.zero⟩

theorem slash_notHex : NotHex 0x2F := by rw [← hexVal_isNone_iff]; decide
theorem one_hex : AnyHex 0x31 1 := by unfold AnyHex LowerHex; decide
theorem one_not_notHex : ¬ NotHex 0x31 := fun h => h 1 one_hex

theorem witness_StepRunsTheDecodedCommand :
    (ready .default (keyPorts 0x04 0 0)).phase = .idle ∧
      (ready .default (keyPorts 0x04 0 0)).requests = .command (keyPorts 0x04 0 0) :: [] ∧
      decode (keyPorts 0x04 0 0).cmd = .ok .nkToHex := ⟨rfl, rfl, by decide⟩

theorem witness_StepCompletesTheCommandInFlight :
    ({ inFlight .default (keyPorts 0x03 1 2) with phase := .busy 3 } : State).phase = .busy 3 ∧
      decode (inFlight .default (keyPorts 0x03 1 2)).sampled.cmd = .ok .nkCmpc := by decide

theorem witness_StepRunsThePlacedWord : decodeTableWord 8 0x17 = some .ckEncC := by decide

/-- Each clause of `IllegalWord` at its boundary. -/
theorem witness_IllegalWordRaisesIllegalCmd :
    ∀ w ∈ [0x20#8, 0x00#8, 0x09#8, 0x1F#8, 0x12#8, 0x18#8, 0xFF#8],
      (ready .default (keyPorts w 0 0)).phase = .idle ∧
      (ready .default (keyPorts w 0 0)).requests = .command (keyPorts w 0 0) :: [] ∧ IllegalWord (keyPorts w 0 0).cmd := by
  intro w hw
  exact ⟨rfl, rfl, by revert w; unfold IllegalWord; decide⟩

theorem witness_ResetStepGivesTheResetState :
    (planned [.reset, .idle]).phase = .idle ∧ (planned [.reset, .idle]).requests = .reset :: [.idle] := by decide

theorem witness_ResetAbandonsTheCommandInFlight :
    (planned [.abort Ports.zero]).phase = .idle ∧ (planned [.abort Ports.zero]).requests = .abort Ports.zero :: [] :=
  ⟨rfl, rfl⟩

theorem witness_IdleStepHoldsTheRegisters :
    (planned [.idle, .reset]).phase = .idle ∧ (planned [.idle, .reset]).requests = .idle :: [.reset] := by decide

theorem witness_OnlyASilentHostStopsTheRun :
    ((planned []).phase = .idle ∧ (planned []).requests = []) ∧
      ¬((planned [.idle]).phase = .idle ∧ (planned [.idle]).requests = []) := by decide

/-- NUM_LEN = NUM_IN_MAX and NUM_LEN = NUM_IN_MAX + 1. -/
theorem witness_NkEncResult :
    (gb (zeros 32)).sampled.numLen.toNat ≤ (gb (zeros 32)).cfg.numInMax ∧
      (gb (zeros 33)).cfg.numInMax < (gb (zeros 33)).sampled.numLen.toNat := by decide

theorem witness_NkEncFieldsInDomain :
    (gb nines).sampled.numLen.toNat ≤ 15 ∧ 15 ≤ (gb nines).cfg.numInMax ∧ CountryOk (gb nines) ∧ NumberOk (gb nines) := by
  unfold CountryOk NumberOk Upper Digit; decide

/-- Bytes out of domain, 16 of them: the spill of R80. -/
theorem witness_NkEncSpillOutOfDomain :
    (gb (List.replicate 16 0xFF)).sampled.numLen.toNat ≤ (gb (List.replicate 16 0xFF)).cfg.numInMax := by decide

/-- Each clause: too long; a first letter '@'; a second letter '['; a byte '/' first; a byte ':' last; all in domain. -/
theorem witness_NkEncCheckedResult :
    (gb (zeros 33)).cfg.numInMax < (gb (zeros 33)).sampled.numLen.toNat ∧
      ¬ Upper (inFlight .default (numPorts 0x11 0x40 0x41 [])).sampled.ctryIn[0] ∧
      (Upper (inFlight .default (numPorts 0x11 0x5A 0x5B [])).sampled.ctryIn[0] ∧
        ¬ Upper (inFlight .default (numPorts 0x11 0x5A 0x5B [])).sampled.ctryIn[1]) ∧
      (CountryOk (gb [0x2F]) ∧ 0 < (gb [0x2F]).sampled.numLen.toNat ∧ ¬ Digit (numAt (gb [0x2F]) 0)) ∧
      (CountryOk (gb [0x30, 0x39, 0x3A]) ∧ 2 < (gb [0x30, 0x39, 0x3A]).sampled.numLen.toNat ∧
        (∀ j < 2, Digit (numAt (gb [0x30, 0x39, 0x3A]) j)) ∧ ¬ Digit (numAt (gb [0x30, 0x39, 0x3A]) 2)) ∧
      ((gb sixteen).sampled.numLen.toNat ≤ (gb sixteen).cfg.numInMax ∧ CountryOk (gb sixteen) ∧ NumberOk (gb sixteen)) := by
  unfold CountryOk NumberOk Upper Digit; decide

/-- The three outcomes, where the letters meet: 0x3F below 0x40, equal letters with other bits apart, 1 above 0. -/
theorem witness_NkCmpcResult :
    (keyPorts 0x03 0x0FFF_FFFF_FFFF_FFFF 0x1000_0000_0000_0000).a.toNat / 2 ^ 54 <
        (keyPorts 0x03 0x0FFF_FFFF_FFFF_FFFF 0x1000_0000_0000_0000).b.toNat / 2 ^ 54 ∧
      (keyPorts 0x03 0x003F_FFFF_FFFF_FFFF 0).a.toNat / 2 ^ 54 = (keyPorts 0x03 0x003F_FFFF_FFFF_FFFF 0).b.toNat / 2 ^ 54 ∧
      (keyPorts 0x03 0x0040_0000_0000_0000 0).b.toNat / 2 ^ 54 <
        (keyPorts 0x03 0x0040_0000_0000_0000 0).a.toNat / 2 ^ 54 := by decide

/-- The two clauses of a digit of NUM_OUT: index 2 below the length 3, index 3 not below it. -/
theorem witness_NkDecResult :
    2 < (keyPorts 0x02 0x0000_0000_0003_0393 0).a.toNat % 16 ∧
      ¬ 3 < (keyPorts 0x02 0x0000_0000_0003_0393 0).a.toNat % 16 := by decide

/-- Each clause: too long (33); empty; '/' at index 0; '/' at index 16 after 16 digits; "1" and 16 zeros, which overflow at index 16; sixteen
'1's. -/
theorem witness_NkFromHexResult :
    (hexText (zeros 33)).cfg.hexInMax < (hexText (zeros 33)).sampled.hexLen.toNat ∧
      ((hexText []).sampled.hexLen.toNat ≤ (hexText []).cfg.hexInMax ∧ (hexText []).sampled.hexLen.toNat = 0) ∧
      (0 < (hexText [0x2F]).sampled.hexLen.toNat ∧ NotHex (hexAt (hexText [0x2F]) 0)) ∧
      (16 < (hexText (List.replicate 16 0x31 ++ [0x2F])).sampled.hexLen.toNat ∧
        (∀ j < 16, ¬ NotHex (hexAt (hexText (List.replicate 16 0x31 ++ [0x2F])) j)) ∧
        NotHex (hexAt (hexText (List.replicate 16 0x31 ++ [0x2F])) 16)) ∧
      (HexDigits (hexText (0x31 :: zeros 16)) 17 (1 :: List.replicate 16 0) ∧
        (hexText (0x31 :: zeros 16)).sampled.hexLen.toNat = 17 ∧
        hexNat ((1 :: List.replicate 16 0).take 16) < 2 ^ 64 ∧ 2 ^ 64 ≤ hexNat ((1 :: List.replicate 16 0).take 17)) ∧
      (HexDigits (hexText (List.replicate 16 0x31)) 16 (List.replicate 16 1) ∧
        (hexText (List.replicate 16 0x31)).sampled.hexLen.toNat = 16 ∧ hexNat (List.replicate 16 1) < 2 ^ 64) := by
  have dig : ∀ j < 16, hexAt (hexText (List.replicate 16 0x31 ++ [0x2F])) j = 0x31 := by decide
  refine ⟨by decide, by decide, ⟨by decide, ?_⟩, ⟨by decide, fun j hj => ?_, ?_⟩, ⟨?_, by decide, by decide, by decide⟩,
    ⟨?_, by decide, by decide⟩⟩
  · exact (by decide : hexAt (hexText [0x2F]) 0 = 0x2F) ▸ slash_notHex
  · rw [dig j hj]; exact one_not_notHex
  · exact (by decide : hexAt (hexText (List.replicate 16 0x31 ++ [0x2F])) 16 = 0x2F) ▸ slash_notHex
  · unfold HexDigits AnyHex LowerHex; decide
  · unfold HexDigits AnyHex LowerHex; decide

theorem witness_ShortHexNeverOverflows :
    0 < (hexText (List.replicate 16 0x46)).sampled.hexLen.toNat ∧ (hexText (List.replicate 16 0x46)).sampled.hexLen.toNat ≤ 16 ∧
      (hexText (List.replicate 16 0x46)).sampled.hexLen.toNat ≤ (hexText (List.replicate 16 0x46)).cfg.hexInMax ∧
      HexDigits (hexText (List.replicate 16 0x46)) (hexText (List.replicate 16 0x46)).sampled.hexLen.toNat
        (List.replicate 16 15) := by
  unfold HexDigits AnyHex LowerHex; decide

theorem witness_PkEncResult :
    (gb (zeros 32)).sampled.numLen.toNat ≤ (gb (zeros 32)).cfg.numInMax ∧
      (gb (zeros 33)).cfg.numInMax < (gb (zeros 33)).sampled.numLen.toNat := by decide

theorem witness_PkEncRange : (gb nines).sampled.numLen.toNat ≤ (gb nines).cfg.numInMax ∧ NumberOk (gb nines) := by
  unfold NumberOk Digit; decide

/-- Each clause: too long; a first byte ':'; a byte '/' past the first 15; sixteen digits. -/
theorem witness_PkEncCheckedResult :
    (gb (zeros 33)).cfg.numInMax < (gb (zeros 33)).sampled.numLen.toNat ∧
      (0 < (gb [0x3A]).sampled.numLen.toNat ∧ ¬ Digit (numAt (gb [0x3A]) 0)) ∧
      ((gb (sixteen ++ [0x2F])).sampled.numLen.toNat ≤ (gb (sixteen ++ [0x2F])).cfg.numInMax ∧
        16 < (gb (sixteen ++ [0x2F])).sampled.numLen.toNat ∧ (∀ j < 16, Digit (numAt (gb (sixteen ++ [0x2F])) j)) ∧
        ¬ Digit (numAt (gb (sixteen ++ [0x2F])) 16)) ∧
      ((gb sixteen).sampled.numLen.toNat ≤ (gb sixteen).cfg.numInMax ∧ NumberOk (gb sixteen)) := by
  unfold NumberOk Digit; decide

/-- 15 zeros and a sixteenth byte against the empty number. -/
theorem witness_PkEncForgetsTheRest :
    (gb []).cfg = (gb (zeros 15 ++ [0x37])).cfg ∧
      (gb (zeros 15 ++ [0x37])).sampled.numLen.toNat ≤ (gb (zeros 15 ++ [0x37])).cfg.numInMax ∧
      (gb []).sampled.numLen.toNat ≤ (gb (zeros 15 ++ [0x37])).cfg.numInMax ∧
      (∀ k < 15, (if k < (gb (zeros 15 ++ [0x37])).sampled.numLen.toNat then numAt (gb (zeros 15 ++ [0x37])) k else 0x30) =
        (if k < (gb []).sampled.numLen.toNat then numAt (gb []) k else 0x30)) := by decide

/-- Each clause: 'a' first; 'Z' then '['; "AZ". -/
theorem witness_CkEncCheckedResult :
    ¬ Upper (inFlight .default (numPorts 0x17 0x61 0x41 [])).sampled.ctryIn[0] ∧
      (Upper (inFlight .default (numPorts 0x17 0x5A 0x5B [])).sampled.ctryIn[0] ∧
        ¬ Upper (inFlight .default (numPorts 0x17 0x5A 0x5B [])).sampled.ctryIn[1]) ∧
      CountryOk (inFlight .default (numPorts 0x17 0x41 0x5A [])) := by
  unfold CountryOk Upper; decide

/-- RES of an NK.ENC. -/
def encoded (s : State) : Word :=
  match exec .nkEnc s with
  | .next t => t.results.res
  | .fault _ => 0
  | .refused _ => 0

/-- "GB", "01": with the second state's A at the RES of the first. -/
theorem witness_NumKeyRoundTrip :
    (gb [0x30, 0x31]).sampled.numLen.toNat ≤ 15 ∧ 15 ≤ (gb [0x30, 0x31]).cfg.numInMax ∧ CountryOk (gb [0x30, 0x31]) ∧
      NumberOk (gb [0x30, 0x31]) ∧
      (inFlight .default (keyPorts 0x02 0x3880_0000_0000_0012 0)).sampled.a = encoded (gb [0x30, 0x31]) := by
  unfold CountryOk NumberOk Upper Digit; decide

theorem witness_LongNumbersAreLossy :
    15 < (gb sixteen).sampled.numLen.toNat ∧ (gb sixteen).sampled.numLen.toNat ≤ (gb sixteen).cfg.numInMax ∧
      CountryOk (gb sixteen) ∧ NumberOk (gb sixteen) ∧
      (inFlight .default (keyPorts 0x02 (encoded (gb sixteen)) 0)).sampled.a = encoded (gb sixteen) := by
  unfold CountryOk NumberOk Upper Digit; decide

theorem witness_ZeroLengthIsAmbiguous :
    (inFlight .default (keyPorts 0x02 0x3880_0000_0003_0390 0)).sampled.a.toNat % 16 = 0 ∧
      (gb (0x31 :: zeros 15)).cfg = (gb []).cfg ∧ (gb (0x31 :: zeros 15)).sampled.ctryIn = (gb []).sampled.ctryIn ∧
      (gb []).sampled.numLen.toNat = 0 ∧ 15 < (gb (0x31 :: zeros 15)).sampled.numLen.toNat ∧
      (gb (0x31 :: zeros 15)).sampled.numLen.toNat ≤ (gb (0x31 :: zeros 15)).cfg.numInMax ∧
      (∀ k < 15, numAt (gb (0x31 :: zeros 15)) ((gb (0x31 :: zeros 15)).sampled.numLen.toNat - 15 + k) = 0x30) := by decide

/-- "AZ" against "BA", "BA" against "BB", and "BA" against itself, with any numbers. -/
theorem witness_CompareFollowsTheLetters :
    (∀ s ∈ [inFlight .default (numPorts 0x01 0x41 0x5A mobile), inFlight .default (numPorts 0x01 0x42 0x41 [0x39]),
        inFlight .default (numPorts 0x01 0x42 0x42 [])],
      CountryOk s ∧ NumberOk s ∧ s.sampled.numLen.toNat ≤ s.cfg.numInMax) ∧
    ∀ p q : State,
      (inFlight .default (keyPorts 0x03 (encoded p) (encoded q))).sampled.a = encoded p ∧
      (inFlight .default (keyPorts 0x03 (encoded p) (encoded q))).sampled.b = encoded q := by
  refine ⟨?_, fun _ _ => ⟨rfl, rfl⟩⟩
  unfold CountryOk NumberOk Upper Digit
  decide

/-- The text of 0x0123456789ABCDEF. -/
theorem witness_HexRoundTrip :
    16 ≤ (hexText []).cfg.hexInMax ∧
      (hexText [0x30, 0x31, 0x32, 0x33, 0x34, 0x35, 0x36, 0x37, 0x38, 0x39, 0x61, 0x62, 0x63, 0x64, 0x65, 0x66]).sampled.hexLen = 16 ∧
      after .default (keyPorts 0x04 0x0123_4567_89AB_CDEF 0) (fun t => decide (∀ k : Fin 16,
        hexAt (hexText [0x30, 0x31, 0x32, 0x33, 0x34, 0x35, 0x36, 0x37, 0x38, 0x39, 0x61, 0x62, 0x63, 0x64, 0x65, 0x66]) k.val =
          t.results.hexOut[k])) = some true := by decide

/-- ZEXT with a second byte 0xFF; SEXT with 0x7F; and the operand of CK.DEC. -/
theorem witness_CountryKeyRoundTrip :
    (inFlight .default (numPorts 0x07 0x41 0xFF [])).cfg.byteExt = .zext ∧
      (inFlight sextConfig (numPorts 0x07 0x41 0x7F [])).sampled.ctryIn[1].toNat < 0x80 ∧
      after sextConfig (numPorts 0x07 0x41 0x7F []) (fun t => t.results.res.extractLsb' 0 16) =
        some ((keyPorts 0x08 0x417F 0).a.extractLsb' 0 16) := by decide

/-- 'P', whose keys have bit 63, and 'O', whose keys do not. -/
theorem witness_TopBitIsSetFromP :
    ∀ c ∈ [0x50#8, 0x4F#8], (inFlight .default (numPorts 0x01 c 0x41 mobile)).sampled.numLen.toNat ≤ 32 ∧
      CountryOk (inFlight .default (numPorts 0x01 c 0x41 mobile)) ∧ NumberOk (inFlight .default (numPorts 0x01 c 0x41 mobile)) := by
  unfold CountryOk NumberOk Upper Digit; decide

theorem witness_CountryKeysOrderByLetters :
    (inFlight .default (numPorts 0x07 0x41 0xFF [])).cfg.byteExt = .zext ∧
      (inFlight .default (numPorts 0x07 0x42 0x00 [])).cfg.byteExt = .zext := ⟨rfl, rfl⟩

theorem witness_CheckedCommandsIgnoreByteExt :
    inFlight sextConfig (numPorts 0x11 0x47 0xC2 []) =
      { inFlight .default (numPorts 0x11 0x47 0xC2 []) with
        cfg := { (inFlight .default (numPorts 0x11 0x47 0xC2 [])).cfg with byteExt := .sext } } ∧
      (inFlight .default (numPorts 0x11 0x47 0xC2 [])).cfg.byteExt = .zext := ⟨rfl, rfl⟩

/-- Each right side of the STATUS clauses: no error; an error. -/
theorem witness_CompletionWritesStatus :
    after .default (keyPorts 0x08 0 0) (fun t => Status.err t.status) = some 0 ∧
      after .default (keyPorts 0x00 0 0) (fun t => Status.err t.status) = some 1 := by decide

theorem witness_ErrorFieldsAreARowOfTheTable :
    (inFlight ⟨255, 16, .sext⟩ Ports.zero).cfg.wf = true ∧ (inFlight ⟨16, 255, .zext⟩ Ports.zero).cfg.wf = true := by decide

/-- Each error of R121 from a command that raises it. -/
theorem witness_EachErrorHasItsCommands :
    after .default (numPorts 0x06 0 0 (zeros 33)) (fun t => Status.err t.status) = some 2 ∧
      after .default (numPorts 0x17 0x47 0x31 []) (fun t => Status.err t.status) = some 3 ∧
      after .default (hexPorts []) (fun t => Status.err t.status) = some 4 := by decide

/-- An illegal word ends with an error. -/
theorem witness_ErrorsLeaveNoResult :
    ∃ t, runSampled (inFlight .default Ports.zero) = .next t ∧ Status.err t.status ≠ 0 := ⟨_, rfl, by decide⟩

/-- A next state for each clause: CK.DEC writes no RES, NUM_OUT or HEX_OUT; CK.ENC no CTRY_OUT. -/
theorem witness_CommandFrame :
    (∃ t, exec .ckDec (inFlight .default Ports.zero) = .next t) ∧ writesRes .ckDec = false ∧ writesNumOut .ckDec = false ∧
      writesHexOut .ckDec = false ∧ (∃ t, exec .ckEnc (inFlight .default Ports.zero) = .next t) ∧
      writesCtryOut .ckEnc = false := ⟨⟨_, rfl⟩, by decide, by decide, by decide, ⟨_, rfl⟩, by decide⟩

/-- Ports that differ in A, and in NUM_IN past NUM_LEN, agree for NK.ENC; that differ in A[16] for CK.DEC. -/
theorem witness_UnreadPortsDoNotMatter :
    (gb []).cfg = (gb []).cfg ∧
      AgreeOn .nkEnc (numPorts 0x01 0x47 0x42 [0x31]) { numPorts 0x01 0x47 0x42 [0x31, 0x32] with a := 7, numLen := 1 } ∧
      AgreeOn .ckDec (keyPorts 0x08 0x1_4742 0) (keyPorts 0x08 0x4742 1) := by
  unfold AgreeOn sameCountry sameNumber; decide

/-- Two states that differ in RES and STATUS. -/
theorem witness_ResultsDependOnThePortsAlone :
    { gb [] with status := 0x0101_0001, results := { Results.zero with res := 5 } }.cfg = (gb []).cfg ∧
      { gb [] with status := 0x0101_0001, results := { Results.zero with res := 5 } }.sampled = (gb []).sampled :=
  ⟨rfl, rfl⟩

/-- A sound state with an error recorded, and its next step. -/
theorem afterError_sound (l : List HostAction) (n : Phase) : Sound { afterError with requests := l, phase := n } where
  params := by show Config.wf Config.default = true; decide
  rsvLow := by show Status.rsvLow 0x1103_0113 = 0; decide
  rsvHigh := by show Status.rsvHigh 0x1103_0113 = 0; decide
  fields := by
    show ErrorFieldsOk Config.default 0x1103_0113
    exact ⟨by decide, by decide, by decide, by decide, by decide, by decide, by decide, by decide, by decide, by decide⟩
  errorSticks := by show Status.err 0x1103_0113 ≠ 0 → Status.serr 0x1103_0113 = 1; decide
  errorZeroes := fun _ => rfl
  fresh := by show Status.cmdv 0x1103_0113 = 0 → _; exact fun h => absurd h (by decide)
  lastCommand := by
    show Status.cmdv 0x1103_0113 = 1 → (Status.err 0x1103_0113 = 1 ↔ IllegalWord (Status.lcmd 0x1103_0113))
    unfold IllegalWord; decide
  digits := by
    show ∀ k : Fin 15, if k.val < Results.zero.numOutLen.toNat then Digit Results.zero.numOut[k] else Results.zero.numOut[k] = 0
    unfold Digit; decide
  hexText := Or.inl rfl

theorem witness_StepKeepsSound :
    ∃ s t, Sound s ∧ step s = .next t := ⟨_, _, afterError_sound [.idle] .idle, rfl⟩

/-- SERR = 1 and CMDV = 1, at an idle action, at a reset and at an abandoned command. -/
theorem witness_OnlyResetClearsTheStickyBits :
    ∀ act ∈ [HostAction.idle, .reset, .abort Ports.zero],
      (∃ t, step { afterError with requests := [act] } = .next t) ∧ Status.serr afterError.status = 1 ∧
        Status.cmdv afterError.status = 1 := by
  intro act h
  fin_cases h <;> exact ⟨⟨_, rfl⟩, by decide⟩

theorem witness_StepKeepsTheParameters :
    (∃ t, step (planned [.reset]) = .next t) ∧ ∃ t, step { planned [] with phase := .busy 2 } = .next t :=
  ⟨⟨_, rfl⟩, ⟨_, rfl⟩⟩

theorem witness_ResetEdgeResets :
    resetPins.rst = true ∧ ({ State.reset with phase := .busy 4 } : State).phase = .busy 4 := ⟨rfl, rfl⟩

/-- With and without a command presented. -/
theorem witness_AcceptEdgeSamplesThePorts :
    State.reset.phase = .idle ∧ (commandPins.rst = false ∧ commandPins.cmdValid = true) ∧
      (noPins.rst = false ∧ noPins.cmdValid = false) := by decide

/-- The completing edge, and the one before it. -/
theorem witness_BusyEdgeIgnoresThePins :
    commandPins.rst = false ∧ noPins.rst = false ∧ ({ State.reset with phase := .busy 0 } : State).phase = .busy 0 ∧
      ({ State.reset with phase := .busy 1 } : State).phase = .busy 1 := by decide

theorem witness_DoneLastsOneCycle :
    ({ State.reset with phase := .busy 0 } : State).phase = .busy 0 ∧ noPins.rst = false := by decide

theorem witness_HandshakeRefinesTheAtomicStep :
    State.reset.phase = .idle ∧ commandPins.rst = false ∧ commandPins.cmdValid = true ∧
      NoReset (List.replicate (Config.latency commandPins.ports) noPins) ∧
      (List.replicate (Config.latency commandPins.ports) noPins).length = Config.latency commandPins.ports :=
  ⟨rfl, rfl, rfl, fun _ h => (List.eq_of_mem_replicate h) ▸ rfl, List.length_replicate⟩

theorem witness_ResetInFlightRefinesAbort :
    State.reset.phase = .idle ∧ commandPins.rst = false ∧ commandPins.cmdValid = true ∧ resetPins.rst = true ∧ NoReset [] ∧
      [].length (α := Pins) < Config.latency commandPins.ports :=
  ⟨rfl, rfl, rfl, rfl, List.forall_mem_nil _, Nat.succ_pos _⟩

theorem witness_ClockEdgeKeepsSound : ∃ s t, Sound s ∧ clockEdge noPins s = .next t :=
  ⟨_, _, afterError_sound [] (.busy 3), rfl⟩

end Sys2Proof.Tests
end

section
/-! SUPPORT. What a completion cannot depend on (spec 00_scope.md): BYTE_EXT in a checked command, and the registers of the state before.
Both statements compare two completions that report the same error, if any, and leave the same results (`EndAlike`). -/

namespace Sys2Proof.Machine

/-! ### Two completions side by side -/

/-- `t` after `s` and `v` after `u` are completions with the same results and the same error or success. Each STATUS is still made from
its own predecessor and command word (R33). -/
def EndAlike (s u t v : State) : Prop :=
  t.results = v.results ∧
    ∃ e, t.status = nextStatus e s.status s.sampled.cmd ∧ v.status = nextStatus e u.status u.sampled.cmd

theorem endAlike_complete (r : Results) (s u : State) : EndAlike s u (complete r s) (complete r u) :=
  ⟨rfl, none, rfl, rfl⟩

theorem endAlike_raise (e : ErrInfo) (s u : State) : EndAlike s u (raise e s) (raise e u) :=
  ⟨rfl, some e, rfl, rfl⟩

/-- A command ends alike from two states in which its checks answer the same and, when they pass, its results are the same. -/
theorem exec_endAlike {i : Instr} {s u : State} (hcheck : checkOf i s = checkOf i u)
    (hresults : checkOf i s = none → resultsOf i s = resultsOf i u) :
    ∃ t v, exec i s = .next t ∧ exec i u = .next v ∧ EndAlike s u t v := by
  cases hs : checkOf i s with
  | none =>
    refine ⟨_, _, exec_pass hs, exec_pass (hcheck ▸ hs), ?_⟩
    rw [hresults hs]
    exact endAlike_complete _ s u
  | some e => exact ⟨_, _, exec_raise hs, exec_raise (hcheck ▸ hs), endAlike_raise e s u⟩

/-- R13: any command word, legal or not, ends alike from two states with the same parameters and sampled ports. -/
theorem runSampled_endAlike {s u : State} (hcfg : s.cfg = u.cfg) (hports : s.sampled = u.sampled) :
    ∃ t v, runSampled s = .next t ∧ runSampled u = .next v ∧ EndAlike s u t v := by
  cases hd : decode s.sampled.cmd with
  | error e =>
    exact ⟨_, _, runSampled_of_illegal hd, runSampled_of_illegal (hports ▸ hd), endAlike_raise illegalCmd s u⟩
  | ok i =>
    have hagree : AgreeOn i s.sampled u.sampled := hports ▸ AgreeOn.refl i s.sampled
    rw [runSampled_of_decode hd, runSampled_of_decode (hports ▸ hd)]
    exact exec_endAlike (checkOf_congr i hcfg hagree) fun _ => resultsOf_congr i hcfg hagree

/-! ### STATUS but for SERR -/

/-- Two STATUS words agree on every field of R26 but SERR, the reserved bits included. -/
def SameButSerr (x y : BitVec 32) : Prop :=
  Status.err x = Status.err y ∧ Status.rsvLow x = Status.rsvLow y ∧ Status.eopnd x = Status.eopnd y ∧
    Status.esub x = Status.esub y ∧ Status.eidx x = Status.eidx y ∧ Status.cmdv x = Status.cmdv y ∧
    Status.rsvHigh x = Status.rsvHigh y ∧ Status.lcmd x = Status.lcmd y

theorem StatusIs.sameButSerr {x y : BitVec 32} {err : BitVec 3} {eopnd esub : BitVec 2} {eidx lcmd : Byte}
    {serr serr' cmdv : BitVec 1} (hx : StatusIs x err eopnd esub eidx serr cmdv lcmd)
    (hy : StatusIs y err eopnd esub eidx serr' cmdv lcmd) : SameButSerr x y :=
  ⟨hx.err.trans hy.err.symm, hx.rsvLow.trans hy.rsvLow.symm, hx.eopnd.trans hy.eopnd.symm, hx.esub.trans hy.esub.symm,
    hx.eidx.trans hy.eidx.symm, hx.cmdv.trans hy.cmdv.symm, hx.rsvHigh.trans hy.rsvHigh.symm, hx.lcmd.trans hy.lcmd.symm⟩

/-- The STATUS a completion writes takes nothing but SERR from the STATUS before (R33, R35). -/
theorem nextStatus_sameButSerr (e : Option ErrInfo) (old old' : BitVec 32) (cmd : Byte) :
    SameButSerr (nextStatus e old cmd) (nextStatus e old' cmd) := by
  cases e with
  | none => exact (statusIs_nextStatus_none old cmd).sameButSerr (statusIs_nextStatus_none old' cmd)
  | some e => exact (statusIs_nextStatus_some e old cmd).sameButSerr (statusIs_nextStatus_some e old' cmd)

/-! ### BYTE_EXT -/

/-- `s` on a block built with another BYTE_EXT. -/
def State.withByteExt (ext : ByteExt) (s : State) : State := { s with cfg := { s.cfg with byteExt := ext } }

/-- No check reads BYTE_EXT: each compares bytes as presented. -/
theorem checkOf_withByteExt (i : Instr) (ext : ByteExt) (s : State) : checkOf i (s.withByteExt ext) = checkOf i s := by
  cases i <;> rfl

theorem byteInt_upper (ext ext' : ByteExt) {b : Byte} (h : Upper b) : byteInt ext b = byteInt ext' b := by
  have hlt : b.toNat < 0x80 := Nat.lt_of_le_of_lt h.2 (by decide)
  rw [byteInt_of_lt ext b hlt, byteInt_of_lt ext' b hlt]

theorem nkEncode_withByteExt (ext : ByteExt) {s : State} (hc : CountryOk s) (hn : NumberOk s) :
    nkEncode (s.withByteExt ext) = nkEncode s := by
  have hkept : keptInt (s.withByteExt ext) = keptInt s := by
    rw [keptInt_eq hn, keptInt_eq (s := s.withByteExt ext) hn]
    rfl
  obtain ⟨hc0, hc1⟩ := hc
  rw [nkEncode_eq, nkEncode_eq, encodeFormula, encodeFormula, hkept, byteInt_upper s.cfg.byteExt ext hc0,
    byteInt_upper s.cfg.byteExt ext hc1]
  rfl

theorem pkEncode_withByteExt (ext : ByteExt) {s : State} (hn : NumberOk s) :
    pkEncode (s.withByteExt ext) = pkEncode s := by
  have hdigits : ∀ b ∈ numSlice s 0 (min s.sampled.numLen.toNat 15), Digit b := numSlice_digits s 0 _ hn (by omega)
  have hvalue : decimalInt ext (numSlice s 0 (min s.sampled.numLen.toNat 15)) =
      decimalInt s.cfg.byteExt (numSlice s 0 (min s.sampled.numLen.toNat 15)) := by
    rw [decimalInt_eq_decimalNat ext _ hdigits, decimalInt_eq_decimalNat _ _ hdigits]
  rw [pkEncode_eq, pkEncode_eq, prefixFormula, prefixFormula, ← hvalue]
  rfl

theorem ckEncode_withByteExt (ext : ByteExt) {s : State} (hc : CountryOk s) :
    ckEncode (s.withByteExt ext) = ckEncode s := by
  have hw : ∀ {b : Byte}, Upper b → widen ext b = widen s.cfg.byteExt b := fun hb => by
    rw [widen_eq_ofInt, widen_eq_ofInt, byteInt_upper ext s.cfg.byteExt hb]
  obtain ⟨hc0, hc1⟩ := hc
  rw [ckEncode, ckEncode, ← hw hc0, ← hw hc1]
  rfl

/-- A checked command that passes its checks has operands in domain, on which both values of BYTE_EXT widen alike (R10, R73). -/
theorem resultsOf_withByteExt {i : Instr} (hi : i = .nkEncC ∨ i = .pkEncC ∨ i = .ckEncC) (ext : ByteExt) {s : State}
    (hpass : checkOf i s = none) : resultsOf i (s.withByteExt ext) = resultsOf i s := by
  rcases hi with rfl | rfl | rfl
  · obtain ⟨-, hrest⟩ := orElse_none hpass
    obtain ⟨hcountry, hnumber⟩ := orElse_none hrest
    simp only [resultsOf, nkEncode_withByteExt ext (checkCountry_none hcountry) (checkNumber_none hnumber)]
  · obtain ⟨-, hnumber⟩ := orElse_none hpass
    simp only [resultsOf, pkEncode_withByteExt ext (checkNumber_none hnumber)]
  · simp only [resultsOf, ckEncode_withByteExt ext (checkCountry_none hpass)]

end Sys2Proof.Machine

open Sys2Proof Sys2Proof.Machine

/-- Settles O36: the checks do not read BYTE_EXT, and past them every byte is below 0x80. -/
theorem checkedCommandsIgnoreByteExt : Obligations.CheckedCommandsIgnoreByteExt := by
  rintro s _ i hi rfl -
  obtain ⟨t, v, ht, hv, hresults, e, hstatus, hstatus'⟩ :=
    exec_endAlike (checkOf_withByteExt i .sext s).symm fun hpass => (resultsOf_withByteExt hi .sext hpass).symm
  exact ⟨t, v, ht, hv, hresults, hstatus.trans hstatus'.symm⟩

/-- Settles O45: equal ports and parameters end alike, and STATUS carries SERR alone over. -/
theorem resultsDependOnThePortsAlone : Obligations.ResultsDependOnThePortsAlone := by
  intro s u hcfg hports
  obtain ⟨t, v, ht, hv, hresults, e, hstatus, hstatus'⟩ := runSampled_endAlike hcfg hports
  have hsame : SameButSerr t.status v.status := by
    rw [hstatus, hstatus', hports]
    exact nextStatus_sameButSerr e s.status u.status u.sampled.cmd
  exact ⟨t, v, ht, hv, hresults, hsame⟩
end

section
/-! SUPPORT. What every step and every clock edge keeps (spec 10_state.md): the frame of a command (R24, R25), what a completion writes to
STATUS (R33), the rows of the table of errors (R121), and the invariant `Sound`, which a completion establishes from any state with allowed
parameters and which depends on the parameters, the result registers and STATUS alone. -/

namespace Sys2Proof.Machine

/-! ### How a command word ends -/

theorem ErrCode.code_ne_zero (e : ErrCode) : e.code ≠ 0 := by cases e <;> decide

theorem ErrCode.code_eq_one_iff (e : ErrCode) : e.code = 1 ↔ e = .illegalCmd := by cases e <;> decide

theorem Opnd.code_injective : Function.Injective Opnd.code := by
  intro o o'
  cases o <;> cases o' <;> decide

/-- R120: every command word, legal or not, completes with its results or raises one error. -/
theorem runSampled_ends {s t : State} (h : runSampled s = .next t) :
    (∃ r, CompletedWith s t r) ∨ ∃ e : ErrInfo, RaisedWith s t e.err.code e.opnd.code e.idx e.sub.code := by
  rcases runSampled_cases s with ⟨i, -, -, hrun⟩ | ⟨-, e, -, -, hrun⟩ | ⟨-, -, hrun⟩ <;> rw [hrun] at h <;> cases h
  · exact .inl ⟨_, completedWith_complete (resultsOf i s) s⟩
  · exact .inr ⟨e, raisedWith_raise e s⟩
  · exact .inr ⟨illegalCmd, raisedWith_raise illegalCmd s⟩

/-- R31, R32: a completion never clears SERR, and sets CMDV. -/
theorem runSampled_sticky {s t : State} (h : runSampled s = .next t) :
    (Status.serr s.status = 1 → Status.serr t.status = 1) ∧ Status.cmdv t.status = 1 := by
  rcases runSampled_ends h with ⟨_, hc⟩ | ⟨_, hr⟩
  · exact ⟨fun hs => hc.status.serr.trans hs, hc.status.cmdv⟩
  · exact ⟨fun _ => hr.status.serr, hr.status.cmdv⟩

/-! ### What a command does not write -/

/-- R23, R24: the results of a command are zero in every register its row of R23 does not list. -/
theorem resultsOf_frame (i : Instr) (s : State) :
    (writesRes i = false → (resultsOf i s).res = 0) ∧
    (writesCtryOut i = false → (resultsOf i s).ctryOut = Results.zero.ctryOut) ∧
    (writesNumOut i = false → (resultsOf i s).numOut = Results.zero.numOut ∧ (resultsOf i s).numOutLen = 0) ∧
    (writesHexOut i = false → (resultsOf i s).hexOut = Results.zero.hexOut) := by
  cases i <;> simp [resultsOf, nkDecode, writesRes, writesCtryOut, writesNumOut, writesHexOut, Results.zero]

/-! ### The error fields of STATUS -/

/-- Two STATUS words record the same error, or none (R27 to R30). -/
def SameError (x y : BitVec 32) : Prop :=
  Status.err x = Status.err y ∧ Status.eopnd x = Status.eopnd y ∧ Status.esub x = Status.esub y ∧
    Status.eidx x = Status.eidx y

theorem StatusIs.sameError {x y : BitVec 32} {err : BitVec 3} {eopnd esub : BitVec 2} {eidx lcmd lcmd' : Byte}
    {serr serr' cmdv cmdv' : BitVec 1} (hx : StatusIs x err eopnd esub eidx serr cmdv lcmd)
    (hy : StatusIs y err eopnd esub eidx serr' cmdv' lcmd') : SameError x y :=
  ⟨hx.err.trans hy.err.symm, hx.eopnd.trans hy.eopnd.symm, hx.esub.trans hy.esub.symm, hx.eidx.trans hy.eidx.symm⟩

/-- The error a completion records depends on neither the STATUS before nor the command word. -/
theorem nextStatus_sameError (e : Option ErrInfo) (old old' : BitVec 32) (cmd cmd' : Byte) :
    SameError (nextStatus e old cmd) (nextStatus e old' cmd') := by
  cases e with
  | none => exact (statusIs_nextStatus_none old cmd).sameError (statusIs_nextStatus_none old' cmd')
  | some e => exact (statusIs_nextStatus_some e old cmd).sameError (statusIs_nextStatus_some e old' cmd')

/-- The rows of R121, each with the indices its operand has on a block with parameters `c`. -/
inductive ErrorRow (c : Config) : ErrInfo → Prop where
  | illegal : ErrorRow c illegalCmd
  | numLength : ErrorRow c ⟨.lengthRange, .number, 0, .none⟩
  | hexLength : ErrorRow c ⟨.lengthRange, .hex, 0, .none⟩
  | country {k : Nat} (hk : k < 2) : ErrorRow c ⟨.invalidInput, .country, BitVec.ofNat 8 k, .none⟩
  | number {k : Nat} (hk : k < c.numInMax) : ErrorRow c ⟨.invalidInput, .number, BitVec.ofNat 8 k, .none⟩
  | hexEmpty : ErrorRow c ⟨.formatError, .hex, 0, .empty⟩
  | hexDigit {k : Nat} (hk : k < c.hexInMax) : ErrorRow c ⟨.formatError, .hex, BitVec.ofNat 8 k, .nonHex⟩
  | hexRange {k : Nat} (hk : k < c.hexInMax) : ErrorRow c ⟨.formatError, .hex, BitVec.ofNat 8 k, .overflow⟩

/-- R121: a command's checks raise a row of the table, and never the decoder's. -/
theorem checkOf_errorRow {i : Instr} {s : State} {e : ErrInfo} (h : checkOf i s = some e) :
    ErrorRow s.cfg e ∧ e.err ≠ .illegalCmd := by
  rcases checkOf_cases h with ⟨-, rfl⟩ | ⟨-, rfl⟩ | ⟨-, k, hk, rfl⟩ | ⟨-, hn, k, hk, rfl⟩ | ⟨-, -, rfl⟩ |
    ⟨-, hn, k, hk, rfl⟩ | ⟨-, hn, k, hk, rfl⟩
  · exact ⟨.numLength, nofun⟩
  · exact ⟨.hexLength, nofun⟩
  · exact ⟨.country hk, nofun⟩
  · exact ⟨.number (hk.trans_le hn), nofun⟩
  · exact ⟨.hexEmpty, nofun⟩
  · exact ⟨.hexDigit (hk.trans_le hn), nofun⟩
  · exact ⟨.hexRange (hk.trans_le hn), nofun⟩

/-- R7: the array ports have at least one byte. -/
theorem capacity_pos {c : Config} (h : c.wf = true) : 0 < c.numInMax ∧ 0 < c.hexInMax := by
  simp only [Config.wf, Config.numOk, Config.hexOk, Bool.and_eq_true, decide_eq_true_eq] at h
  omega

theorem ofNat_toNat_lt {k n : Nat} (h : k < n) : (BitVec.ofNat 8 k).toNat < n :=
  (BitVec.toNat_ofNat k 8 ▸ Nat.mod_le k (2 ^ 8)).trans_lt h

/-- An error index lies in the operand the error is about (R30). -/
theorem ErrorRow.idx_lt {c : Config} (hc : c.wf = true) {e : ErrInfo} (he : ErrorRow c e) :
    (e.opnd = .country → e.idx.toNat < 2) ∧ (e.opnd = .number → e.idx.toNat < c.numInMax) ∧
      (e.opnd = .hex → e.idx.toNat < c.hexInMax) := by
  obtain ⟨hnum, hhex⟩ := capacity_pos hc
  cases he with
  | illegal => exact ⟨nofun, nofun, nofun⟩
  | numLength => exact ⟨nofun, fun _ => hnum, nofun⟩
  | hexLength | hexEmpty => exact ⟨nofun, nofun, fun _ => hhex⟩
  | country hk => exact ⟨fun _ => ofNat_toNat_lt hk, nofun, nofun⟩
  | number hk => exact ⟨nofun, fun _ => ofNat_toNat_lt hk, nofun⟩
  | hexDigit hk | hexRange hk => exact ⟨nofun, nofun, fun _ => ofNat_toNat_lt hk⟩

theorem StatusIs.errorFieldsOk_none {c : Config} {st : BitVec 32} {serr cmdv : BitVec 1} {lcmd : Byte}
    (h : StatusIs st 0 0 0 0 serr cmdv lcmd) : ErrorFieldsOk c st := by
  obtain ⟨herr, -, hopnd, hsub, hidx, -⟩ := h
  constructor <;> simp [herr, hopnd, hsub, hidx]

theorem StatusIs.errorFieldsOk_row {c : Config} (hc : c.wf = true) {e : ErrInfo} (he : ErrorRow c e) {st : BitVec 32}
    {serr cmdv : BitVec 1} {lcmd : Byte}
    (h : StatusIs st e.err.code e.opnd.code e.sub.code e.idx serr cmdv lcmd) : ErrorFieldsOk c st := by
  obtain ⟨hcountry, hnumber, hhex⟩ := he.idx_lt hc
  obtain ⟨herr, -, hopnd, hsub, hidx, -⟩ := h
  exact {
    errRange := by rw [herr]; cases he <;> simp [illegalCmd, ErrCode.code]
    opndNone := by rw [herr, hopnd]; cases he <;> simp [illegalCmd, ErrCode.code, Opnd.code]
    lengthOpnd := by rw [herr, hopnd]; cases he <;> simp [illegalCmd, ErrCode.code, Opnd.code]
    inputOpnd := by rw [herr, hopnd]; cases he <;> simp [illegalCmd, ErrCode.code, Opnd.code]
    formatOpnd := by rw [herr, hopnd]; cases he <;> simp [illegalCmd, ErrCode.code, Opnd.code]
    subOnlyFormat := by rw [herr, hsub]; cases he <;> simp [illegalCmd, ErrCode.code, SubReason.code]
    idxOnly := by rw [herr, hsub, hidx]; cases he <;> simp [illegalCmd, ErrCode.code, SubReason.code]
    idxCountry := by rw [hopnd, hidx]; exact fun ho => hcountry (Opnd.code_injective (a₂ := .country) ho)
    idxNumber := by rw [hopnd, hidx]; exact fun ho => hnumber (Opnd.code_injective (a₂ := .number) ho)
    idxHex := by rw [hopnd, hidx]; exact fun ho => hhex (Opnd.code_injective (a₂ := .hex) ho) }

/-! ### LCMD and the text registers -/

/-- R53, R54: the decoder answers a command exactly on the words that are not illegal. -/
theorem decode_isOk_iff (w : Byte) : (decode w).isOk = true ↔ ¬ IllegalWord w := by
  unfold IllegalWord
  revert w
  decide

theorem not_illegalWord_of_decode {w : Byte} {i : Instr} (h : decode w = .ok i) : ¬ IllegalWord w :=
  (decode_isOk_iff w).1 (by rw [h]; rfl)

theorem illegalWord_of_decode {w : Byte} {e : DecodeError} (h : decode w = .error e) : IllegalWord w := by
  by_contra hlegal
  have hok := (decode_isOk_iff w).2 hlegal
  rw [h] at hok
  cases hok

/-- NUM_OUT holds NUM_OUT_LEN digits and then 0x00 (R74). -/
def NumTextOk (r : Results) : Prop :=
  ∀ k : Fin 15, if k.val < r.numOutLen.toNat then Digit r.numOut[k] else r.numOut[k] = 0

/-- HEX_OUT is all 0x00 or sixteen lowercase hex digits (R91). -/
def HexTextOk (r : Results) : Prop :=
  r.hexOut = Results.zero.hexOut ∨ ∀ k : Fin 16, ∃ d, LowerHex r.hexOut[k] d

theorem numTextOk_of_zero {r : Results} (h : r.numOut = Results.zero.numOut ∧ r.numOutLen = 0) : NumTextOk r := by
  intro k
  simp [h, Results.zero]

/-- R74: NK.DEC writes a digit below the length, and 0x00 from it on. -/
theorem numTextOk_nkDecode (a : Word) : NumTextOk (nkDecode a) := by
  intro k
  split
  · next hk =>
    have hd := nkDecode_numOut_digit a k.val k.isLt hk
    simp only [Digit, Fin.getElem_fin, hd]
    omega
  · next hk => exact nkDecode_numOut_rest a k.val k.isLt (Nat.le_of_not_lt hk)

/-- NUM_OUT after any command: NK.DEC writes it, and the frame of R24 gives it zero from the others. -/
theorem numTextOk_resultsOf (i : Instr) (s : State) : NumTextOk (resultsOf i s) := by
  obtain ⟨-, -, hnum, -⟩ := resultsOf_frame i s
  cases i with
  | nkDec => exact numTextOk_nkDecode s.sampled.a
  | _ => exact numTextOk_of_zero (hnum rfl)

/-- HEX_OUT after any command: NK.TOHEX writes it, and the frame of R24 gives it zero from the others. -/
theorem hexTextOk_resultsOf (i : Instr) (s : State) : HexTextOk (resultsOf i s) := by
  obtain ⟨-, -, -, hhex⟩ := resultsOf_frame i s
  cases i with
  | nkToHex =>
    refine .inr fun k => ⟨(nibble s.sampled.a k.val).toNat, ?_⟩
    simpa [resultsOf] using hexChar_lower (nibble s.sampled.a k.val)
  | _ => exact .inl (hhex rfl)

/-! ### The invariant -/

/-- `Sound` speaks of the parameters, the result registers and STATUS alone. -/
theorem Sound.congr {s t : State} (h : Sound s) (hcfg : t.cfg = s.cfg) (hresults : t.results = s.results)
    (hstatus : t.status = s.status) : Sound t := by
  cases s
  cases t
  cases hcfg
  cases hresults
  cases hstatus
  exact { h with }

/-- Every register zero is sound (R36). -/
theorem sound_of_zero {s : State} (hc : s.cfg.wf = true) (hresults : s.results = Results.zero) (hstatus : s.status = 0) :
    Sound s where
  params := hc
  rsvLow := by rw [hstatus]; rfl
  rsvHigh := by rw [hstatus]; rfl
  fields := hstatus ▸ StatusIs.errorFieldsOk_none (statusIs_pack 0 0 0 0 0 0 0)
  errorSticks := by rw [hstatus]; decide
  errorZeroes := fun _ => hresults
  fresh := fun _ => ⟨hstatus, hresults⟩
  lastCommand := by rw [hstatus]; exact fun h => absurd h (by decide)
  digits := numTextOk_of_zero (by rw [hresults]; exact ⟨rfl, rfl⟩)
  hexText := .inl (by rw [hresults])

theorem sound_resetOp {s : State} (hc : s.cfg.wf = true) : Sound (resetOp s) := sound_of_zero hc rfl rfl

theorem sound_complete {s : State} (hc : s.cfg.wf = true) (hlegal : ¬ IllegalWord s.sampled.cmd) {r : Results}
    (hnum : NumTextOk r) (hhex : HexTextOk r) : Sound (complete r s) := by
  have hst := (completedWith_complete r s).status
  exact {
    params := hc
    rsvLow := hst.rsvLow
    rsvHigh := hst.rsvHigh
    fields := hst.errorFieldsOk_none
    errorSticks := fun h => absurd hst.err h
    errorZeroes := fun h => absurd hst.err h
    fresh := fun h => absurd (hst.cmdv.symm.trans h) (by decide)
    lastCommand := fun _ => by
      rw [hst.err, hst.lcmd]
      exact iff_of_false (by decide) hlegal
    digits := hnum
    hexText := hhex }

theorem sound_raise {s : State} (hc : s.cfg.wf = true) {e : ErrInfo} (he : ErrorRow s.cfg e)
    (hword : e.err = .illegalCmd ↔ IllegalWord s.sampled.cmd) : Sound (raise e s) := by
  have hst := (raisedWith_raise e s).status
  exact {
    params := hc
    rsvLow := hst.rsvLow
    rsvHigh := hst.rsvHigh
    fields := hst.errorFieldsOk_row hc he
    errorSticks := fun _ => hst.serr
    errorZeroes := fun _ => rfl
    fresh := fun h => absurd (hst.cmdv.symm.trans h) (by decide)
    lastCommand := fun _ => by rw [hst.err, hst.lcmd, e.err.code_eq_one_iff, hword]
    digits := numTextOk_of_zero ⟨rfl, rfl⟩
    hexText := .inl rfl }

/-- Every completion is sound, whatever the registers held before: R24, R25 and R33 write all of them. -/
theorem runSampled_sound {s t : State} (hc : s.cfg.wf = true) (h : runSampled s = .next t) : Sound t := by
  rcases runSampled_cases s with ⟨i, hd, -, hrun⟩ | ⟨i, e, hd, hcheck, hrun⟩ | ⟨e, hd, hrun⟩ <;> rw [hrun] at h <;> cases h
  · exact sound_complete hc (not_illegalWord_of_decode hd) (numTextOk_resultsOf i s) (hexTextOk_resultsOf i s)
  · obtain ⟨hrow, herr⟩ := checkOf_errorRow hcheck
    exact sound_raise hc hrow (iff_of_false herr (not_illegalWord_of_decode hd))
  · exact sound_raise hc .illegal (iff_of_true rfl (illegalWord_of_decode hd))

/-! ### The clock edge -/

/-- Everything a clock edge can be (R140, R144 to R148). -/
theorem clockEdge_cases {s t : State} {pins : Pins} (h : clockEdge pins s = .next t) :
    (pins.rst = true ∧ t = resetOp s) ∨
    (pins.rst = false ∧ s.phase = .idle ∧ pins.cmdValid = true ∧ t = accept pins.ports s) ∨
    (pins.rst = false ∧ s.phase = .idle ∧ pins.cmdValid = false ∧ t = idleEdge s) ∨
    (pins.rst = false ∧ s.phase = .busy 0 ∧ runSampled s = .next t) ∨
    (pins.rst = false ∧ ∃ n, s.phase = .busy (n + 1) ∧ t = { s with phase := .busy n, done := false }) := by
  cases hr : pins.rst with
  | true => rw [clockEdge_reset hr] at h; cases h; exact .inl ⟨rfl, rfl⟩
  | false =>
    cases hp : s.phase with
    | idle =>
      cases hv : pins.cmdValid with
      | true => rw [clockEdge_accept hr hv hp] at h; cases h; exact .inr (.inl ⟨rfl, rfl, rfl, rfl⟩)
      | false => rw [clockEdge_idle hr hv hp] at h; cases h; exact .inr (.inr (.inl ⟨rfl, rfl, rfl, rfl⟩))
    | busy n =>
      cases n with
      | zero => rw [clockEdge_complete hr hp] at h; exact .inr (.inr (.inr (.inl ⟨rfl, rfl, h⟩)))
      | succ n => rw [clockEdge_wait hr hp] at h; cases h; exact .inr (.inr (.inr (.inr ⟨rfl, n, rfl, rfl⟩)))

end Sys2Proof.Machine

open Sys2Proof Sys2Proof.Machine

/-- Settles O48: a completion and a reset are sound whatever the registers held, and an idle edge changes none of them. -/
theorem stepKeepsSound : Obligations.StepKeepsSound := by
  intro s t hs h
  rcases step_cases h with ⟨_, -, hrun⟩ | ⟨-, p, rest, -, hrun⟩ | ⟨-, _, -, rfl⟩ | ⟨-, _, -, rfl⟩ | ⟨-, _, _, -, rfl⟩
  · exact runSampled_sound hs.params hrun
  · exact runSampled_sound (s := accept p { s with requests := rest }) hs.params hrun
  · exact hs.congr rfl rfl rfl
  · exact sound_resetOp hs.params
  · exact sound_resetOp hs.params

/-- Settles O57: an edge that neither resets nor completes changes no register. -/
theorem clockEdgeKeepsSound : Obligations.ClockEdgeKeepsSound := by
  intro s t pins hs h
  rcases clockEdge_cases h with ⟨-, rfl⟩ | ⟨-, -, -, rfl⟩ | ⟨-, -, -, rfl⟩ | ⟨-, -, hrun⟩ | ⟨-, n, -, rfl⟩
  · exact sound_resetOp hs.params
  · exact hs.congr rfl rfl rfl
  · exact hs.congr rfl rfl rfl
  · exact runSampled_sound hs.params hrun
  · exact hs.congr rfl rfl rfl

/-- Settles O39: SERR is kept by a completion without error and set by every error, whose code is never 0. -/
theorem completionWritesStatus : Obligations.CompletionWritesStatus := by
  intro s
  obtain ⟨t, ht⟩ := runSampled_completes s
  refine ⟨t, ht, ?_⟩
  rcases runSampled_ends ht with ⟨_, hc⟩ | ⟨e, hr⟩
  · obtain ⟨herr, hlow, hopnd, hsub, hidx, hserr, hcmdv, hhigh, hlcmd⟩ := hc.status
    exact ⟨hcmdv, hlcmd, hlow, hhigh, by rw [hserr, if_neg (not_not_intro herr)], fun _ => ⟨hopnd, hsub, hidx⟩⟩
  · obtain ⟨herr, hlow, -, -, -, hserr, hcmdv, hhigh, hlcmd⟩ := hr.status
    have hne : Status.err t.status ≠ 0 := herr ▸ e.err.code_ne_zero
    exact ⟨hcmdv, hlcmd, hlow, hhigh, by rw [hserr, if_pos hne], fun h => absurd h hne⟩

/-- Settles O42: ERR is not 0 only after `raise`, which writes zero to every result register. -/
theorem errorsLeaveNoResult : Obligations.ErrorsLeaveNoResult := by
  intro s
  obtain ⟨t, ht⟩ := runSampled_completes s
  refine ⟨t, ht, fun hne => ?_⟩
  rcases runSampled_ends ht with ⟨_, hc⟩ | ⟨e, hr⟩
  · exact absurd hc.status.err hne
  · refine ⟨?_, ?_⟩
    · rw [hr.status.err, hr.status.eopnd, hr.status.eidx, hr.status.esub]
      exact hr
    · rw [hr.results]
      simp [Results.zero]

/-- Settles O43: a command that raises leaves every result zero, and one that completes the frame of its results. -/
theorem commandFrame : Obligations.CommandFrame := by
  intro i s t h
  rcases exec_cases i s with ⟨-, hexec⟩ | ⟨e, -, hexec⟩ <;> rw [hexec] at h <;> cases h
  · obtain ⟨hres, hctry, hnum, hhex⟩ := resultsOf_frame i s
    exact ⟨hres, hctry, hnum, hhex, rfl, rfl, rfl⟩
  · exact ⟨fun _ => rfl, fun _ => rfl, fun _ => ⟨rfl, rfl⟩, fun _ => rfl, rfl, rfl, rfl⟩

/-- Settles O44: checks and results are functions of what the command reads, and the error fields of the error alone. -/
theorem unreadPortsDoNotMatter : Obligations.UnreadPortsDoNotMatter := by
  intro i s u hcfg hagree
  obtain ⟨t, v, ht, hv, hresults, e, hstatus, hstatus'⟩ :=
    exec_endAlike (checkOf_congr i hcfg hagree) fun _ => resultsOf_congr i hcfg hagree
  refine ⟨t, v, ht, hv, hresults, ?_⟩
  rw [hstatus, hstatus']
  exact nextStatus_sameError e s.status u.status s.sampled.cmd u.sampled.cmd

/-- Settles O49: a completion sets CMDV and never clears SERR, an idle edge keeps STATUS, and the rest are the two resets. -/
theorem onlyResetClearsTheStickyBits : Obligations.OnlyResetClearsTheStickyBits := by
  intro s t h
  rcases step_cases h with ⟨_, -, hrun⟩ | ⟨-, _, _, -, hrun⟩ | ⟨-, _, -, rfl⟩ | ⟨hp, rest, hreq, -⟩ | ⟨hp, p, rest, hreq, -⟩
  · obtain ⟨hserr, hcmdv⟩ := runSampled_sticky hrun
    exact .inl ⟨hserr, fun _ => hcmdv⟩
  · obtain ⟨hserr, hcmdv⟩ := runSampled_sticky hrun
    exact .inl ⟨hserr, fun _ => hcmdv⟩
  · exact .inl ⟨id, id⟩
  · exact .inr ⟨hp, rest, .inl hreq⟩
  · exact .inr ⟨hp, rest, .inr ⟨p, hreq⟩⟩

/-- Settles O50: a command in flight completes without taking an action; every other step takes the first one. -/
theorem stepKeepsTheParameters : Obligations.StepKeepsTheParameters := by
  intro s t h
  rcases step_cases h with ⟨_, -, hrun⟩ | ⟨-, p, rest, hreq, hrun⟩ | ⟨hp, rest, hreq, rfl⟩ | ⟨-, rest, hreq, rfl⟩ |
    ⟨-, p, rest, hreq, rfl⟩
  · obtain ⟨hphase, -, hcfg, -, hrequests⟩ := runSampled_finished hrun
    exact ⟨hcfg, hphase, .inl hrequests⟩
  · obtain ⟨hphase, -, hcfg, -, hrequests⟩ := runSampled_finished hrun
    exact ⟨hcfg, hphase, .inr ⟨_, by rw [hreq, hrequests]; rfl⟩⟩
  · exact ⟨rfl, hp, .inr ⟨_, hreq⟩⟩
  · exact ⟨rfl, rfl, .inr ⟨_, hreq⟩⟩
  · exact ⟨rfl, rfl, .inr ⟨_, hreq⟩⟩

/-- Settles O9: the zero STATUS word is the packed word of zero fields. -/
theorem resetStateIsAllZero : Obligations.ResetStateIsAllZero :=
  ⟨rfl, rfl, rfl, rfl, rfl, statusIs_pack 0 0 0 0 0 0 0, rfl, rfl⟩

/-- Settles O47: every register is zero at reset, and the default parameters are ones R7 allows. -/
theorem resetIsSound : Obligations.ResetIsSound := sound_of_zero (by decide) rfl rfl
end

section
/-! SUPPORT. What a host that stores and compares results relies on (spec 20_memory.md): the order of CountryKeys by their letters (R43),
and that issuing a command again leaves the registers of its first completion (R46). -/

namespace Sys2Proof.Machine

/-- R110 under ZEXT: the first byte stands above the whole range of the second. -/
theorem ckEncode_toNat_zext {s : State} (h : s.cfg.byteExt = .zext) :
    (ckEncode s).toNat = s.sampled.ctryIn[0].toNat * 256 + s.sampled.ctryIn[1].toNat := by
  rw [ckEncode_toNat, countryKeyFormula, h, if_neg nofun]

/-- R31, R33: the second completion with the same error, or none, finds SERR as it would write it. -/
theorem nextStatus_idempotent (e : Option ErrInfo) (old : BitVec 32) (cmd : Byte) :
    nextStatus e (nextStatus e old cmd) cmd = nextStatus e old cmd := by
  cases e with
  | none =>
    have hserr : Status.serr (nextStatus none old cmd) = Status.serr old := (statusIs_nextStatus_none old cmd).serr
    exact congrArg (Status.pack 0 0 0 0 · 1 cmd) hserr
  | some e => rfl

end Sys2Proof.Machine

open Sys2Proof Sys2Proof.Machine

/-- Settles O38: both keys are two-digit numbers in base 256, which compare by the first digit before the second. -/
theorem countryKeysOrderByLetters : Obligations.CountryKeysOrderByLetters := by
  intro s u hs hu
  refine ⟨_, _, exec_pass rfl, exec_pass rfl, ?_⟩
  change (ckEncode s).toNat < (ckEncode u).toNat ↔ _
  rw [ckEncode_toNat_zext hs, ckEncode_toNat_zext hu, ← BitVec.toNat_inj]
  have hlow : s.sampled.ctryIn[1].toNat < 256 := s.sampled.ctryIn[1].isLt
  have hlow' : u.sampled.ctryIn[1].toNat < 256 := u.sampled.ctryIn[1].isLt
  omega

/-- Settles O46: both completions run the same ports and parameters, so they end alike, and STATUS is already as the second writes it. -/
theorem commandsAreIdempotent : Obligations.CommandsAreIdempotent := by
  intro s
  obtain ⟨t, ht⟩ := runSampled_completes s
  have hcfg : s.cfg = (accept s.sampled t).cfg := (runSampled_finished ht).cfg.symm
  obtain ⟨t', u, ht', hu, hresults, e, hstatus, hstatus'⟩ :=
    runSampled_endAlike (u := accept s.sampled t) hcfg rfl
  cases ht.symm.trans ht'
  refine ⟨t, u, ht, hu, hresults.symm, ?_⟩
  rw [hstatus', accept_status, accept_sampled, hstatus, nextStatus_idempotent]
end

section
/-! SUPPORT. The command word (spec 30_encoding.md): packing and unpacking its three fields (R50), the eleven rows of R53 with the words
outside them (R54, R55), the step that runs the decoded command (R149), and the four fields of a NumKey in domain (R57). -/

namespace Sys2Proof.Machine

/-! ### The three fields of a word, by numbers -/

theorem packFields_toNat (f : CmdFields) :
    (packFields f).toNat = f.rsv.toNat * 32 + f.chk.toNat * 16 + f.op.toNat := by
  rw [packFields, toNat_append_eq_add, toNat_append_eq_add, BitVec.toNat_ofBool]
  ring

theorem fieldsOf_rsv_toNat (w : Byte) : (fieldsOf w).rsv.toNat = w.toNat / 32 := by
  have hw : w.toNat < 256 := w.isLt
  rw [fieldsOf, field_toNat]
  omega

theorem fieldsOf_chk_toNat (w : Byte) : (fieldsOf w).chk.toNat = w.toNat / 16 % 2 := by
  rw [fieldsOf, BitVec.getLsbD, Nat.toNat_testBit]

theorem fieldsOf_op_toNat (w : Byte) : (fieldsOf w).op.toNat = w.toNat % 16 := by
  rw [fieldsOf, field_toNat, pow_zero, Nat.div_one]
  rfl

/-- Fields with the same three numbers are the same. -/
theorem cmdFields_ext_toNat {f g : CmdFields} (hrsv : f.rsv.toNat = g.rsv.toNat) (hchk : f.chk.toNat = g.chk.toNat)
    (hop : f.op.toNat = g.op.toNat) : f = g := by
  obtain ⟨rsv, chk, op⟩ := f
  obtain ⟨rsv', chk', op'⟩ := g
  rw [CmdFields.mk.injEq]
  exact ⟨BitVec.eq_of_toNat_eq hrsv, Function.LeftInverse.injective Bool.ofNat_toNat hchk, BitVec.eq_of_toNat_eq hop⟩

theorem fieldsOf_packFields (f : CmdFields) : fieldsOf (packFields f) = f := by
  have hchk : f.chk.toNat < 2 := f.chk.toNat_lt
  have hop : f.op.toNat < 16 := f.op.isLt
  apply cmdFields_ext_toNat
  · rw [fieldsOf_rsv_toNat, packFields_toNat]; omega
  · rw [fieldsOf_chk_toNat, packFields_toNat]; omega
  · rw [fieldsOf_op_toNat, packFields_toNat]; omega

theorem packFields_fieldsOf (w : Byte) : packFields (fieldsOf w) = w := by
  apply BitVec.eq_of_toNat_eq
  rw [packFields_toNat, fieldsOf_rsv_toNat, fieldsOf_chk_toNat, fieldsOf_op_toNat]
  omega

/-! ### Legal words -/

theorem uncheckedOnly_ok_iff (chk : Bool) (i : Instr) : (∃ j, uncheckedOnly chk i = .ok j) ↔ chk = false := by
  cases chk with
  | false => exact ⟨fun _ => rfl, fun _ => ⟨i, rfl⟩⟩
  | true => exact ⟨nofun, nofun⟩

/-- R50 to R52, by numbers. -/
theorem wf_iff (f : CmdFields) :
    f.wf = true ↔ f.rsv = 0 ∧ (1 ≤ f.op.toNat ∧ f.op.toNat ≤ 8) ∧
      (f.chk = false ∨ f.op.toNat = 1 ∨ f.op.toNat = 6 ∨ f.op.toNat = 7) := by
  simp [CmdFields.wf, CmdFields.rsvOk, CmdFields.opOk, CmdFields.chkOk, ← BitVec.toNat_inj, and_assoc, or_assoc]

/-- R54: the decoder answers a command on the well-formed fields and on no others. OP 1, 6 and 7 have both variants, 2 to 5 and 8 the
unchecked one alone, and the rest are reserved. -/
theorem decodeFields_ok_iff_wf (f : CmdFields) : (∃ i, decodeFields f = .ok i) ↔ f.wf = true := by
  rw [wf_iff, decodeFields]
  by_cases hrsv : f.rsv = 0
  · rw [if_neg (not_not_intro hrsv)]
    split
    case h_1 hop | h_6 hop | h_7 hop => exact iff_of_true ⟨_, rfl⟩ ⟨hrsv, by omega, by omega⟩
    case h_9 =>
      simp only [imp_false] at *
      exact iff_of_false nofun fun ⟨_, ⟨_, _⟩, _⟩ => by omega
    all_goals
      rename_i hop
      rw [uncheckedOnly_ok_iff]
      simp [hrsv, hop]
  · rw [if_pos hrsv]
    exact iff_of_false nofun fun hwf => hrsv hwf.1

theorem commandWord (i : Instr) : Laws.CommandWord.Statement i := by
  cases i with
  | nkEnc => exact Laws.CommandWord.nkEnc
  | nkEncC => exact Laws.CommandWord.nkEncC
  | nkDec => exact Laws.CommandWord.nkDec
  | nkCmpc => exact Laws.CommandWord.nkCmpc
  | nkToHex => exact Laws.CommandWord.nkToHex
  | nkFromHex => exact Laws.CommandWord.nkFromHex
  | pkEnc => exact Laws.CommandWord.pkEnc
  | pkEncC => exact Laws.CommandWord.pkEncC
  | ckEnc => exact Laws.CommandWord.ckEnc
  | ckEncC => exact Laws.CommandWord.ckEncC
  | ckDec => exact Laws.CommandWord.ckDec

/-- A row of opcode_table.json is read by the decoder of R54. -/
theorem decode_of_decodeTableWord {w : Nat} {i : Instr} (h : decodeTableWord 8 w = some i) :
    decode (BitVec.ofNat 8 w) = .ok i := by
  unfold decodeTableWord at h
  split at h
  · split at h
    · next j hj => cases h; exact hj
    · cases h
  · cases h

/-! ### A NumKey of at most 15 digits -/

theorem keptLen_of_le {s : State} (h : s.sampled.numLen.toNat ≤ 15) : keptLen s = s.sampled.numLen.toNat :=
  if_neg (Nat.not_lt.2 h)

theorem keptBytes_of_le {s : State} (h : s.sampled.numLen.toNat ≤ 15) :
    keptBytes s = numSlice s 0 s.sampled.numLen.toNat :=
  if_neg (Nat.not_lt.2 h)

end Sys2Proof.Machine

open Sys2Proof Sys2Proof.Machine

/-- Settles O3: the numbers of the fields are the digits of the word's number, and on fields the decoder answers as `wf` does. -/
theorem encodeAndDecodeAgree : Obligations.EncodeAndDecodeAgree := by
  refine ⟨fun i => ?_, fun w i h => ?_, fun f => ⟨fieldsOf_packFields f, ?_⟩, packFields_fieldsOf⟩
  · obtain ⟨hwf, hword, hdecode⟩ := commandWord i
    exact ⟨hwf, hword, (hdecode _).2 rfl⟩
  · obtain ⟨-, -, hdecode⟩ := commandWord i
    exact ((hdecode w).1 h).symm
  · rw [decode, fieldsOf_packFields, decodeFields_ok_iff_wf]

/-- Settles O1: each row's word is the one word that decodes to its command. -/
theorem legalWordsAreExactlyTheTable : Obligations.LegalWordsAreExactlyTheTable := by
  intro w i
  obtain ⟨-, hword, hdecode⟩ := commandWord i
  rw [hdecode, hword]

/-- Settles O2: a word is illegal exactly when it is none of those the decoder answers a command for. -/
theorem illegalWordsAreTheReservedOnes : Obligations.IllegalWordsAreTheReservedOnes := by
  intro w
  refine ⟨fun ⟨_, he⟩ => illegalWord_of_decode he, fun hw => ?_⟩
  cases hd : decode w with
  | ok i => exact absurd hw (not_illegalWord_of_decode hd)
  | error e => exact ⟨e, rfl⟩

/-- Settles O15: in domain each field of RES reads its own value back, and a word is the sum of its fields. -/
theorem nkEncFieldsInDomain : Obligations.NkEncFieldsInDomain := by
  intro s hlen hmax hcountry hnumber
  refine ⟨_, exec_pass (checkNumLen_pass (hlen.trans hmax)), err_complete .., ?_⟩
  have hres : (complete (resultsOf .nkEnc s) s).results.res = encodeFormula s := nkEncode_eq s
  obtain ⟨hl1, hl2, -, hnum, hkept⟩ := formula_in_domain hcountry hnumber
  rw [keptBytes_of_le hlen] at hnum
  rw [keptLen_of_le hlen] at hkept
  have hsum := word_of_fields (encodeFormula s)
  rw [hl1, hl2, hnum, hkept] at hsum
  rw [hres]
  exact ⟨hsum, hl1, hl2, hnum, hkept⟩

/-- Settles O4: five rows of the table, and one word for each reason of R55. -/
theorem wordsFromTheEncodingDecode : Obligations.WordsFromTheEncodingDecode :=
  ⟨decode_encode_nkEnc, decode_encode_nkEncC, decode_encode_nkFromHex, decode_encode_pkEncC, decode_encode_ckDec,
    rfl, rfl, rfl⟩

/-- Settles O5: the idle state takes the action, and the accepted ports hold the word that decodes to the command. -/
theorem stepRunsTheDecodedCommand : Obligations.StepRunsTheDecodedCommand := by
  intro s p rest i hidle hrequests hdecode
  rw [step_request hidle hrequests]
  exact runSampled_of_decode (s := accept p { s with requests := rest }) hdecode

/-- Settles O7: the placed word is the next action of an idle state, so O5's step runs it. -/
theorem stepRunsThePlacedWord : Obligations.StepRunsThePlacedWord := by
  intro s w i h
  exact stepRunsTheDecodedCommand (s.withFetchWord 8 w) _ s.requests i rfl rfl (decode_of_decodeTableWord h)
end

section
/-! SUPPORT. The NumKey codec (spec 40_numkey.md): how NK.ENC and NK.ENC.C end (R72, R73), the key of a number too long for its length
field (R77, R78), what NK.DEC reads back from a key (R74, R76), and NK.CMPC by the numbers of the letter fields (R75, R79). -/

namespace Sys2Proof.Machine

/-! ### How NK.ENC and NK.ENC.C end -/

theorem exec_raisedWith {i : Instr} {s : State} {e : ErrInfo} (h : checkOf i s = some e) :
    ∃ t, exec i s = .next t ∧ RaisedWith s t e.err.code e.opnd.code e.idx e.sub.code :=
  ⟨_, exec_raise h, raisedWith_raise ..⟩

theorem resultsOf_nkEnc (s : State) : resultsOf .nkEnc s = { Results.zero with res := encodeFormula s } := by
  rw [resultsOf, nkEncode_eq]

/-- R72: a number within NUM_IN_MAX is encoded, whatever its bytes. -/
theorem exec_nkEnc {s : State} (hlen : s.sampled.numLen.toNat ≤ s.cfg.numInMax) :
    exec .nkEnc s = .next (complete { Results.zero with res := encodeFormula s } s) := by
  rw [← resultsOf_nkEnc]
  exact exec_pass (checkNumLen_pass hlen)

/-- R73: with the length in range the country and then the number are checked. -/
theorem checkOf_nkEncC {s : State} (hlen : s.sampled.numLen.toNat ≤ s.cfg.numInMax) :
    checkOf .nkEncC s = (checkCountry s <|> checkNumber s) := by
  rw [checkOf, checkNumLen_pass hlen]
  rfl

theorem checkOf_nkEncC_country {s : State} (hlen : s.sampled.numLen.toNat ≤ s.cfg.numInMax) {e : ErrInfo}
    (h : checkCountry s = some e) : checkOf .nkEncC s = some e := by
  rw [checkOf_nkEncC hlen, h]
  rfl

theorem checkOf_nkEncC_number {s : State} (hlen : s.sampled.numLen.toNat ≤ s.cfg.numInMax) (hcountry : CountryOk s) :
    checkOf .nkEncC s = checkNumber s := by
  rw [checkOf_nkEncC hlen, checkCountry_pass hcountry]
  rfl

/-- R73: in domain NK.ENC.C computes exactly as NK.ENC. -/
theorem exec_nkEncC_eq_nkEnc {s : State} (hlen : s.sampled.numLen.toNat ≤ s.cfg.numInMax) (hcountry : CountryOk s)
    (hnumber : NumberOk s) : exec .nkEncC s = exec .nkEnc s := by
  rw [exec_pass ((checkOf_nkEncC_number hlen hcountry).trans (checkNumber_pass hnumber)),
    exec_pass (i := .nkEnc) (checkNumLen_pass hlen)]
  rfl

/-! ### The kept digits of a key -/

theorem keptLen_of_long {s : State} (h : 15 < s.sampled.numLen.toNat) : keptLen s = 0 := if_pos h

theorem keptInt_of_long {s : State} (h : 15 < s.sampled.numLen.toNat) :
    keptInt s = decimalInt s.cfg.byteExt (numSlice s (s.sampled.numLen.toNat - 15) 15) :=
  if_pos h

theorem keptBytes_of_long {s : State} (h : 15 < s.sampled.numLen.toNat) :
    keptBytes s = numSlice s (s.sampled.numLen.toNat - 15) 15 :=
  if_pos h

/-- The empty number has the value 0 (R78). -/
theorem keptInt_of_empty {s : State} (h : s.sampled.numLen.toNat = 0) : keptInt s = 0 := by
  simp [keptInt, h, numSlice, decimalInt]

/-- A long number whose last 15 bytes are '0' has the value 0 (R78). -/
theorem keptInt_of_zeros {s : State} (h : 15 < s.sampled.numLen.toNat)
    (hzero : ∀ k < 15, numAt s (s.sampled.numLen.toNat - 15 + k) = 0x30) : keptInt s = 0 := by
  have hfits := s.sampled.numLen.isLt
  have hlength : (numSlice s (s.sampled.numLen.toNat - 15) 15).length = 15 := numSlice_length _ _ _ (by omega)
  have hbytes : numSlice s (s.sampled.numLen.toNat - 15) 15 = List.replicate 15 0x30 := by
    refine List.eq_replicate_iff.2 ⟨hlength, fun b hb => ?_⟩
    obtain ⟨k, hk, rfl⟩ := List.getElem_of_mem hb
    rw [numSlice_getElem]
    exact hzero k (hlength ▸ hk)
  rw [keptInt_of_long h, hbytes]
  simpa [decimalInt] using decimalInt_append_zeros s.cfg.byteExt [] 15

/-- R80, in domain: 15 digits fit in the 50 bits of NUM. -/
theorem formula_num_of_digits {s : State} (h : NumberOk s) :
    (nkNum (encodeFormula s)).toNat = decimalNat (keptBytes s) := by
  have hlt := keptNat_lt h
  rw [formula_num, keptInt_eq h, BitVec.toNat_ofInt]
  omega

/-! ### NK.DEC -/

theorem exec_nkDec (s : State) : exec .nkDec s = .next (complete (nkDecode s.sampled.a) s) := rfl

theorem nkL1_toNat (a : Word) : (nkL1 a).toNat = a.toNat / 2 ^ 59 := by
  have := a.isLt
  rw [nkL1, field_toNat]
  omega

theorem nkL2_toNat (a : Word) : (nkL2 a).toNat = a.toNat / 2 ^ 54 % 32 := field_toNat ..

/-- R76, R77: in domain the letters of the key are the country. -/
theorem nkDecode_formula_ctryOut {s : State} (hcountry : CountryOk s) (hnumber : NumberOk s) :
    (nkDecode (encodeFormula s)).ctryOut = s.sampled.ctryIn := by
  obtain ⟨hl1, hl2, -⟩ := formula_in_domain hcountry hnumber
  exact country_ext (nkLetter_eq hcountry.1 hl1) (nkLetter_eq hcountry.2 hl2)

/-- R76: at most 15 digits read back byte by byte, leading zeros included. -/
theorem nkDecode_formula_numOut {s : State} (hlen : s.sampled.numLen.toNat ≤ 15) (hnumber : NumberOk s) {k : Nat}
    (hk : k < 15) (hbelow : k < s.sampled.numLen.toNat) : (nkDecode (encodeFormula s)).numOut[k] = numAt s k := by
  have hlength : (numSlice s 0 s.sampled.numLen.toNat).length = s.sampled.numLen.toNat :=
    numSlice_length _ _ _ (by omega)
  have hdigits := decimalDigits_decimalNat _ (numSlice_digits s 0 _ hnumber (Nat.zero_add s.sampled.numLen.toNat).le)
  rw [hlength] at hdigits
  rw [nkDecode_numOut, formula_len, formula_num_of_digits hnumber, keptLen_of_le hlen, keptBytes_of_le hlen, hdigits,
    List.getD_eq_getElem _ _ (hlength.symm ▸ hbelow), numSlice_getElem, Nat.zero_add]

/-- R78: a length field of 0 decodes to the empty number. -/
theorem nkDecode_empty {a : Word} (h : (nkLen a).toNat = 0) :
    (nkDecode a).numOutLen = 0 ∧ (nkDecode a).numOut = Results.zero.numOut :=
  ⟨BitVec.eq_of_toNat_eq h, nkDecode_numOut_empty a h⟩

/-! ### NK.CMPC -/

theorem exec_nkCmpc (s : State) :
    exec .nkCmpc s = .next (complete { Results.zero with res := nkCompare s.sampled.a s.sampled.b } s) := rfl

/-- R75: the three outcomes, as signed values, are the three orders of bits [63:54]. -/
theorem nkCompare_toInt_iff (a b : Word) :
    ((nkCompare a b).toInt = -1 ↔ (nkCc a).toNat < (nkCc b).toNat) ∧
      ((nkCompare a b).toInt = 0 ↔ (nkCc a).toNat = (nkCc b).toNat) ∧
      ((nkCompare a b).toInt = 1 ↔ (nkCc b).toNat < (nkCc a).toNat) := by
  rw [nkCompare_eq]
  split_ifs with hlt heq
  · rw [show (-1 : Word).toInt = -1 from rfl]; omega
  · rw [show (0 : Word).toInt = 0 from rfl]; omega
  · rw [show (1 : Word).toInt = 1 from rfl]; omega

theorem country_eq_iff (x y : Vector Byte 2) : x = y ↔ x[0].toNat = y[0].toNat ∧ x[1].toNat = y[1].toNat :=
  ⟨fun h => h ▸ ⟨rfl, rfl⟩, fun ⟨h0, h1⟩ => country_ext (BitVec.eq_of_toNat_eq h0) (BitVec.eq_of_toNat_eq h1)⟩

end Sys2Proof.Machine

open Sys2Proof Sys2Proof.Machine

/-- Settles O30: in domain no field of the key spills, and the digits of a digit string's value are the string. -/
theorem numKeyRoundTrip : Obligations.NumKeyRoundTrip := by
  intro s u i hi hlen hmax hcountry hnumber
  have hrange := hlen.trans hmax
  have henc : exec i s = .next (complete { Results.zero with res := encodeFormula s } s) := by
    rcases hi with rfl | rfl
    · exact exec_nkEnc hrange
    · rw [exec_nkEncC_eq_nkEnc hrange hcountry hnumber, exec_nkEnc hrange]
  refine ⟨_, henc, fun ha => ⟨_, exec_nkDec u, ?_⟩⟩
  rw [complete_results, ha]
  exact ⟨nkDecode_formula_ctryOut hcountry hnumber, (formula_len s).trans (keptLen_of_le hlen),
    fun k hk => nkDecode_formula_numOut hlen hnumber k.isLt hk⟩

/-- Settles O14: the length is the one check, and RES modulo 2^64 step by step is the formula wrapped once. -/
theorem nkEncResult : Obligations.NkEncResult := by
  refine ⟨decode_encode_nkEnc, fun s => ⟨fun hlen => ?_, fun hlong => ?_⟩⟩
  · exact ⟨_, exec_nkEnc hlen, completedWith_complete ..⟩
  · exact exec_raisedWith (i := .nkEnc) (checkNumLen_raise hlong)

/-- Settles O16: each field of the formula is the OR of that field of its terms, on any bytes. -/
theorem nkEncSpillOutOfDomain : Obligations.NkEncSpillOutOfDomain := fun s hlen =>
  ⟨_, exec_nkEnc hlen, err_complete .., formula_cc s, formula_num s, formula_len s⟩

/-- Settles O17: the first check that raises is reported, and past them all the command is NK.ENC. -/
theorem nkEncCheckedResult : Obligations.NkEncCheckedResult := by
  refine ⟨decode_encode_nkEncC, fun s => ⟨fun hlong => ?_, fun hlen => ⟨fun h0 => ?_, fun h0 h1 => ?_, ?_, ?_⟩⟩⟩
  · have hcheck : checkOf .nkEncC s = some ⟨.lengthRange, .number, 0, .none⟩ := by
      rw [checkOf, checkNumLen_raise hlong]
      rfl
    exact exec_raisedWith hcheck
  · exact exec_raisedWith (checkOf_nkEncC_country hlen (checkCountry_raise_first h0))
  · exact exec_raisedWith (checkOf_nkEncC_country hlen (checkCountry_raise_second h0 h1))
  · intro hcountry k hk hbefore hbad
    exact exec_raisedWith ((checkOf_nkEncC_number hlen hcountry).trans (checkNumber_raise hk hbefore hbad))
  · intro hcountry hnumber
    rw [exec_nkEncC_eq_nkEnc hlen hcountry hnumber]
    exact ⟨_, exec_nkEnc hlen, completedWith_complete .., exec_nkEnc hlen⟩

/-- Settles O18: each field by its number; NUM_OUT is a digit of NUM below the length and zero from it on. -/
theorem nkDecResult : Obligations.NkDecResult := by
  refine ⟨decode_encode_nkDec, fun s => ⟨_, _, exec_nkDec s, completedWith_complete .., ?_, ?_, ?_, ?_, rfl, rfl⟩⟩
  · rw [← nkL1_toNat]
    exact nkLetter_toNat _
  · rw [← nkL2_toNat]
    exact nkLetter_toNat _
  · exact nkLen_toNat _
  · intro k
    rw [← nkLen_toNat, ← nkNum_toNat]
    split_ifs with hk
    · exact nkDecode_numOut_digit _ k k.isLt hk
    · exact congrArg BitVec.toNat (nkDecode_numOut_rest s.sampled.a k k.isLt (Nat.le_of_not_lt hk))

/-- Settles O19: bits [63:54] are the number divided by 2^54, and the three orders exclude each other. -/
theorem nkCmpcResult : Obligations.NkCmpcResult := by
  refine ⟨decode_encode_nkCmpc, fun s => ⟨_, _, exec_nkCmpc s, completedWith_complete .., ?_⟩⟩
  rw [nkCompare_eq, nkCc_toNat, nkCc_toNat]
  refine ⟨fun hlt => if_pos hlt, fun heq => ?_, fun hgt => ?_⟩
  · exact (if_neg heq.not_lt).trans (if_pos heq)
  · exact (if_neg hgt.not_gt).trans (if_neg hgt.ne')

/-- Settles O31: a long number's length field is 0, while its last 15 bytes are still accumulated into NUM. -/
theorem longNumbersAreLossy : Obligations.LongNumbersAreLossy := by
  intro s u hlong hmax
  have hempty : (nkLen (encodeFormula s)).toNat = 0 := (formula_len s).trans (keptLen_of_long hlong)
  refine ⟨_, exec_nkEnc hmax, ?_, fun hnumber => ?_, fun ha => ⟨_, exec_nkDec u, ?_⟩⟩
  · rw [← keptInt_of_long hlong]
    exact formula_num s
  · rw [← keptBytes_of_long hlong]
    exact formula_num_of_digits hnumber
  · rw [complete_results, ha]
    obtain ⟨hnone, hzero⟩ := nkDecode_empty hempty
    exact ⟨hnone, hzero, nkDecode_formula_ctryOut⟩

/-- Settles O32: both numbers have the value 0 and the length field 0, so the two keys have the same four terms. -/
theorem zeroLengthIsAmbiguous : Obligations.ZeroLengthIsAmbiguous := by
  refine ⟨fun s h => ⟨_, exec_nkDec s, nkDecode_empty ((nkLen_toNat _).trans h)⟩, ?_⟩
  intro s u hcfg hcountry hnone hlong hmax hzero
  have hlen : s.sampled.numLen.toNat ≤ s.cfg.numInMax := hnone ▸ Nat.zero_le _
  have hkey : encodeFormula s = encodeFormula u := by
    have hs : keptLen s = 0 := (keptLen_of_le (by omega)).trans hnone
    rw [encodeFormula, encodeFormula, keptInt_of_empty hnone, keptInt_of_zeros hlong hzero, hs, keptLen_of_long hlong,
      hcfg, hcountry]
  refine ⟨_, _, exec_nkEnc hlen, exec_nkEnc hmax, ?_⟩
  rw [complete_results, complete_results, hkey]

/-- Settles O33: in domain bits [63:54] are the two letters as digits in base 32, which compare by the first before the second. -/
theorem compareFollowsTheLetters : Obligations.CompareFollowsTheLetters := by
  intro p q c hpc hpn hpmax hqc hqn hqmax
  refine ⟨_, _, exec_nkEnc hpmax, exec_nkEnc hqmax, fun ha hb => ⟨_, exec_nkCmpc c, ?_⟩⟩
  obtain ⟨-, -, hp, -⟩ := formula_in_domain hpc hpn
  obtain ⟨-, -, hq, -⟩ := formula_in_domain hqc hqn
  obtain ⟨hless, hequal, hgreater⟩ := nkCompare_toInt_iff (encodeFormula p) (encodeFormula q)
  obtain ⟨⟨hp0, hp0'⟩, hp1, hp1'⟩ := hpc
  obtain ⟨⟨hq0, hq0'⟩, hq1, hq1'⟩ := hqc
  rw [complete_results, ha, hb]
  simp only [complete_results, hless, hequal, hgreater, hp, hq, country_eq_iff, ← BitVec.toNat_inj]
  refine ⟨?_, ?_, ?_⟩ <;> omega
end

section
/-! SUPPORT. NumKey hex rendering and parsing (spec 41_numkey_hex.md): the sixteen digits NK.TOHEX writes (R91), how NK.FROMHEX ends on
each kind of text (R92), and the round trip between them (R93). -/

namespace Sys2Proof.Machine

/-! ### NK.TOHEX -/

/-- The sixteen bytes NK.TOHEX writes to HEX_OUT for a value (R91). -/
def hexRendering (a : Word) : Vector Byte 16 := Vector.ofFn fun k => hexChar (nibble a k.val)

theorem exec_nkToHex (s : State) :
    exec .nkToHex s = .next (complete { Results.zero with hexOut := hexRendering s.sampled.a } s) := rfl

/-- R91: byte `k` of the rendering is the lowercase digit of nibble `k`, counted from the top. -/
theorem hexRendering_lower (a : Word) (k : Fin 16) :
    LowerHex (hexRendering a)[k] (a.toNat / 16 ^ (15 - k.val) % 16) := by
  rw [← nibble_toNat a k.val k.isLt, hexRendering, Fin.getElem_fin, Vector.getElem_ofFn]
  exact hexChar_lower _

/-! ### How NK.FROMHEX ends -/

/-- R92: past the length check, an empty text raises. -/
theorem checkOf_nkFromHex_empty {s : State} (hlen : s.sampled.hexLen.toNat ≤ s.cfg.hexInMax)
    (hempty : s.sampled.hexLen.toNat = 0) : checkOf .nkFromHex s = some ⟨.formatError, .hex, 0, .empty⟩ := by
  rw [checkOf, checkHexLen_pass hlen, checkHexEmpty_raise hempty]
  rfl

/-- R92: a text in range with at least one byte is checked for its digits and then for its value. -/
theorem checkOf_nkFromHex {s : State} (hlen : s.sampled.hexLen.toNat ≤ s.cfg.hexInMax)
    (hpos : 0 < s.sampled.hexLen.toNat) : checkOf .nkFromHex s = (checkHexDigits s <|> checkHexRange s) := by
  rw [checkOf, checkHexLen_pass hlen, checkHexEmpty_pass hpos]
  rfl

/-- R92: of a text of hex digits only the value is left to check. -/
theorem checkOf_nkFromHex_digits {s : State} {ds : List Nat} (hlen : s.sampled.hexLen.toNat ≤ s.cfg.hexInMax)
    (hpos : 0 < s.sampled.hexLen.toNat) (hdigits : HexDigits s s.sampled.hexLen.toNat ds) :
    checkOf .nkFromHex s = checkHexRange s := by
  rw [checkOf_nkFromHex hlen hpos, checkHexDigits_pass (notHex_of_hexDigits hdigits)]
  rfl

/-- R92: a text of hex digits whose value fits in 64 bits parses to it. -/
theorem exec_nkFromHex {s : State} {ds : List Nat} (hlen : s.sampled.hexLen.toNat ≤ s.cfg.hexInMax)
    (hpos : 0 < s.sampled.hexLen.toNat) (hdigits : HexDigits s s.sampled.hexLen.toNat ds) (hfits : hexNat ds < 2 ^ 64) :
    exec .nkFromHex s = .next (complete { Results.zero with res := BitVec.ofNat 64 (hexNat ds) } s) := by
  rw [exec_pass ((checkOf_nkFromHex_digits hlen hpos hdigits).trans (checkHexRange_pass hdigits hfits)), resultsOf,
    hexValue_whole hdigits]

/-- R92: sixteen hex digits are at most 2^64 − 1. -/
theorem hexNat_lt_of_short {s : State} {n : Nat} {ds : List Nat} (h : HexDigits s n ds) (hn : n ≤ 16) :
    hexNat ds < 2 ^ 64 :=
  calc hexNat ds < 16 ^ ds.length := hexNat_lt ds (hexDigits_lt h)
    _ ≤ 16 ^ 16 := Nat.pow_le_pow_right (by decide) (h.1.trans_le hn)
    _ = 2 ^ 64 := by decide

/-! ### The round trip -/

/-- The sixteen nibbles of a value as numbers, the most significant first. -/
def nibbleValues (a : Word) : List Nat := (List.range 16).map fun k => a.toNat / 16 ^ (15 - k) % 16

theorem nibbleValues_getD (a : Word) {k : Nat} (hk : k < 16) :
    (nibbleValues a).getD k 0 = a.toNat / 16 ^ (15 - k) % 16 := by
  simp [nibbleValues, List.getD_eq_getElem?_getD, hk]

/-- The nibbles of a value write the value. -/
theorem hexNat_nibbleValues (a : Word) : hexNat (nibbleValues a) = a.toNat :=
  (hexNat_nibbles 16 a.toNat).trans (Nat.mod_eq_of_lt a.isLt)

/-- R93: a text that is what NK.TOHEX writes for `a` has the nibbles of `a` as its digits. -/
theorem hexDigits_of_hexRendering {u : State} {a : Word} (h : ∀ k : Fin 16, hexAt u k.val = (hexRendering a)[k]) :
    HexDigits u 16 (nibbleValues a) := by
  refine ⟨by simp [nibbleValues], fun k hk => .inl ?_⟩
  rw [nibbleValues_getD a hk, h ⟨k, hk⟩]
  exact hexRendering_lower a ⟨k, hk⟩

end Sys2Proof.Machine

open Sys2Proof Sys2Proof.Machine

/-- Settles O34: the text is read as the nibbles of A, which write A and so fit in 64 bits. -/
theorem hexRoundTrip : Obligations.HexRoundTrip := by
  intro s u hmax
  refine ⟨_, exec_nkToHex s, fun hcount htext => ?_⟩
  have hlen : u.sampled.hexLen.toNat = 16 := congrArg BitVec.toNat hcount
  have hdigits : HexDigits u u.sampled.hexLen.toNat (nibbleValues s.sampled.a) := hlen ▸ hexDigits_of_hexRendering htext
  refine ⟨_, exec_nkFromHex (hlen.trans_le hmax) (by omega) hdigits (hexNat_lt_of_short hdigits hlen.le), ?_,
    err_complete ..⟩
  rw [complete_results, hexNat_nibbleValues, BitVec.ofNat_toNat, BitVec.setWidth_eq]

/-- Settles O20: each byte of HEX_OUT is the lowercase digit of its nibble. -/
theorem nkToHexResult : Obligations.NkToHexResult :=
  ⟨decode_encode_nkToHex, fun s => ⟨_, _, exec_nkToHex s, completedWith_complete .., hexRendering_lower s.sampled.a⟩⟩

/-- Settles O21: the checks in R92's order, each raising where the clause says once those before it pass. -/
theorem nkFromHexResult : Obligations.NkFromHexResult := by
  refine ⟨decode_encode_nkFromHex, fun s => ⟨fun hlong => ?_, fun hlen => ⟨fun hempty => ?_, ?_, fun ds hdigits => ⟨?_, ?_⟩⟩⟩⟩
  · have hcheck : checkOf .nkFromHex s = some ⟨.lengthRange, .hex, 0, .none⟩ := by
      rw [checkOf, checkHexLen_raise hlong]
      rfl
    exact exec_raisedWith hcheck
  · exact exec_raisedWith (checkOf_nkFromHex_empty hlen hempty)
  · intro k hk hbefore hbad
    have hcheck : checkOf .nkFromHex s = some ⟨.formatError, .hex, BitVec.ofNat 8 k, .nonHex⟩ := by
      rw [checkOf_nkFromHex hlen (Nat.zero_lt_of_lt hk), checkHexDigits_raise hk hbefore hbad]
      rfl
    exact exec_raisedWith hcheck
  · intro k hk hbelow hreached
    have hcheck := checkOf_nkFromHex_digits hlen (Nat.zero_lt_of_lt hk) hdigits
    exact exec_raisedWith (hcheck.trans (checkHexRange_raise hdigits hk hbelow hreached))
  · intro hpos hfits
    exact ⟨_, exec_nkFromHex hlen hpos hdigits hfits, completedWith_complete ..⟩

/-- Settles O22: sixteen digits cannot pass 2^64 − 1, so no check is left to raise. -/
theorem shortHexNeverOverflows : Obligations.ShortHexNeverOverflows := by
  intro s ds hpos hshort hlen hdigits
  have hfits := hexNat_lt_of_short hdigits hshort
  refine ⟨_, exec_nkFromHex hlen hpos hdigits hfits, err_complete .., ?_⟩
  rw [complete_results, BitVec.toNat_ofNat]
  exact Nat.mod_eq_of_lt hfits
end

section
/-! SUPPORT. The PrefixKey codec (spec 42_prefixkey.md): the fifteen digit positions of a PrefixKey (R100), and how PK.ENC and PK.ENC.C
end (R100, R101). -/

namespace Sys2Proof.Machine

/-! ### The fifteen digit positions -/

/-- The bytes at the 15 digit positions of a PrefixKey (R100): the first 15 of the number, a missing one counting as '0'. -/
def prefixDigits (s : State) : List Byte :=
  numSlice s 0 (min s.sampled.numLen.toNat 15) ++ List.replicate (15 - min s.sampled.numLen.toNat 15) 0x30

/-- R100: weighting the first bytes up to 15 positions is reading the padded bytes as one decimal number. -/
theorem prefixFormula_eq (s : State) :
    prefixFormula s = BitVec.ofInt 64 (decimalInt s.cfg.byteExt (prefixDigits s)) := by
  rw [prefixDigits, decimalInt_append_zeros]
  rfl

theorem prefixDigits_length (s : State) : (prefixDigits s).length = 15 := by
  rw [prefixDigits, List.length_append, List.length_replicate, numSlice_length _ _ _ (by omega)]
  omega

theorem prefixDigits_getElem (s : State) {k : Nat} (hk : k < (prefixDigits s).length) :
    (prefixDigits s)[k] = if k < s.sampled.numLen.toNat then numAt s k else 0x30 := by
  have hpos : k < 15 := prefixDigits_length s ▸ hk
  have hlength : (numSlice s 0 (min s.sampled.numLen.toNat 15)).length = min s.sampled.numLen.toNat 15 :=
    numSlice_length _ _ _ (by omega)
  simp only [prefixDigits]
  split_ifs with hlen
  · rw [List.getElem_append_left (by omega), numSlice_getElem, Nat.zero_add]
  · rw [List.getElem_append_right (by omega), List.getElem_replicate]

/-- Numbers that agree position by position, a missing byte counting as '0', have the same 15 digits. -/
theorem prefixDigits_congr {s u : State}
    (h : ∀ k < 15, (if k < s.sampled.numLen.toNat then numAt s k else 0x30) =
      (if k < u.sampled.numLen.toNat then numAt u k else 0x30)) : prefixDigits s = prefixDigits u := by
  refine List.ext_getElem ((prefixDigits_length s).trans (prefixDigits_length u).symm) fun k hs hu => ?_
  rw [prefixDigits_getElem s hs, prefixDigits_getElem u hu]
  exact h k (prefixDigits_length s ▸ hs)

theorem prefixDigits_digits {s : State} (h : NumberOk s) : ∀ b ∈ prefixDigits s, Digit b := by
  intro b hb
  rcases List.mem_append.1 hb with hslice | hpad
  · exact numSlice_digits s 0 _ h (by omega) b hslice
  · rw [List.eq_of_mem_replicate hpad]
    exact ⟨by decide, by decide⟩

/-- R102: fifteen digits stay below 10^15. -/
theorem decimalNat_prefixDigits_lt {s : State} (h : NumberOk s) : decimalNat (prefixDigits s) < 10 ^ 15 :=
  prefixDigits_length s ▸ decimalNat_lt _ (prefixDigits_digits h)

/-- R102: on digits nothing wraps, and the key is the decimal number its 15 positions write. -/
theorem prefixFormula_toNat {s : State} (h : NumberOk s) : (prefixFormula s).toNat = decimalNat (prefixDigits s) := by
  have hlt := decimalNat_prefixDigits_lt h
  rw [prefixFormula_eq, decimalInt_eq_decimalNat _ _ (prefixDigits_digits h), BitVec.toNat_ofInt]
  omega

/-! ### How PK.ENC and PK.ENC.C end -/

/-- R100: a number within NUM_IN_MAX is encoded, whatever its bytes. -/
theorem exec_pkEnc {s : State} (hlen : s.sampled.numLen.toNat ≤ s.cfg.numInMax) :
    exec .pkEnc s = .next (complete { Results.zero with res := prefixFormula s } s) := by
  rw [← pkEncode_eq]
  exact exec_pass (checkNumLen_pass hlen)

/-- R101: with the length in range the number is checked. -/
theorem checkOf_pkEncC {s : State} (hlen : s.sampled.numLen.toNat ≤ s.cfg.numInMax) :
    checkOf .pkEncC s = checkNumber s := by
  rw [checkOf, checkNumLen_pass hlen]
  rfl

/-- R101, R129: the length is checked before the number. -/
theorem checkOf_pkEncC_long {s : State} (hlong : s.cfg.numInMax < s.sampled.numLen.toNat) :
    checkOf .pkEncC s = some ⟨.lengthRange, .number, 0, .none⟩ := by
  rw [checkOf, checkNumLen_raise hlong]
  rfl

/-- R101: on digits PK.ENC.C computes exactly as PK.ENC. -/
theorem exec_pkEncC_eq_pkEnc {s : State} (hlen : s.sampled.numLen.toNat ≤ s.cfg.numInMax) (hnumber : NumberOk s) :
    exec .pkEncC s = exec .pkEnc s := by
  rw [exec_pass ((checkOf_pkEncC hlen).trans (checkNumber_pass hnumber)),
    exec_pass (i := .pkEnc) (checkNumLen_pass hlen)]
  rfl

end Sys2Proof.Machine

open Sys2Proof Sys2Proof.Machine

/-- Settles O23: the length is the one check, and RES modulo 2^64 step by step is the formula wrapped once. -/
theorem pkEncResult : Obligations.PkEncResult := by
  refine ⟨decode_encode_pkEnc, fun s => ⟨fun hlen => ?_, fun hlong => ?_⟩⟩
  · exact ⟨_, exec_pkEnc hlen, completedWith_complete ..⟩
  · exact exec_raisedWith (i := .pkEnc) (checkNumLen_raise hlong)

/-- Settles O24: the 15 digit positions hold digits, whose value is below 10^15 and so does not wrap. -/
theorem pkEncRange : Obligations.PkEncRange := by
  intro s hlen hnumber
  refine ⟨_, exec_pkEnc hlen, ?_⟩
  rw [complete_results, prefixFormula_toNat hnumber]
  exact ⟨decimalNat_prefixDigits_lt hnumber, rfl⟩

/-- Settles O25: the length is checked, then every presented byte, and past both the command is PK.ENC. -/
theorem pkEncCheckedResult : Obligations.PkEncCheckedResult := by
  refine ⟨decode_encode_pkEncC, fun s => ⟨fun hlong => ?_, fun hlen => ⟨fun k hk hbefore hbad => ?_, fun hnumber => ?_⟩⟩⟩
  · exact exec_raisedWith (checkOf_pkEncC_long hlong)
  · exact exec_raisedWith ((checkOf_pkEncC hlen).trans (checkNumber_raise hk hbefore hbad))
  · rw [exec_pkEncC_eq_pkEnc hlen hnumber]
    exact ⟨_, exec_pkEnc hlen, completedWith_complete .., exec_pkEnc hlen⟩

/-- Settles O26: the key reads the 15 digit positions and BYTE_EXT alone, and on those the two states agree. -/
theorem pkEncForgetsTheRest : Obligations.PkEncForgetsTheRest := by
  intro s u hcfg hs hu hagree
  have hkey : prefixFormula s = prefixFormula u := by
    rw [prefixFormula_eq, prefixFormula_eq, prefixDigits_congr hagree, hcfg]
  refine ⟨_, _, exec_pkEnc hs, exec_pkEnc (hcfg ▸ hu), ?_⟩
  rw [complete_results, complete_results, hkey]
end

section
/-! SUPPORT. The CountryKey codec (spec 43_countrykey.md): how CK.ENC, CK.ENC.C and CK.DEC end (R110 to R112), when the key is the two
bytes verbatim, and what the two bytes of a key are (R113). -/

namespace Sys2Proof.Machine

/-! ### How CK.ENC and CK.ENC.C end -/

theorem exec_ckEnc (s : State) : exec .ckEnc s = .next (complete { Results.zero with res := ckEncode s } s) := rfl

/-- R111: in domain CK.ENC.C computes exactly as CK.ENC. -/
theorem exec_ckEncC_eq_ckEnc {s : State} (h : CountryOk s) : exec .ckEncC s = exec .ckEnc s :=
  exec_pass (i := .ckEncC) (checkCountry_pass h)

/-- R110, R113: unless the second byte's sign bits cover the first, the key is the two bytes as one number in base 256. -/
theorem ckEncode_toNat_verbatim {s : State} (h : s.cfg.byteExt = .zext ∨ s.sampled.ctryIn[1].toNat < 0x80) :
    (ckEncode s).toNat = s.sampled.ctryIn[0].toNat * 256 + s.sampled.ctryIn[1].toNat := by
  rcases h with hzext | hlow
  · exact ckEncode_toNat_zext hzext
  · rw [ckEncode_toNat, countryKeyFormula, if_neg fun hcover => hcover.2.not_gt hlow]

/-- R111: the letters are below 0x80, so BYTE_EXT does not matter. -/
theorem ckEncode_toNat_in_domain {s : State} (h : CountryOk s) :
    (ckEncode s).toNat = s.sampled.ctryIn[0].toNat * 256 + s.sampled.ctryIn[1].toNat :=
  ckEncode_toNat_verbatim (.inr (h.2.2.trans_lt (by decide)))

/-! ### CK.DEC -/

/-- The two bytes CK.DEC writes to CTRY_OUT for a value (R112). -/
def ckDecode (a : Word) : Vector Byte 2 := #v[a.extractLsb' 8 8, a.extractLsb' 0 8]

theorem exec_ckDec (s : State) :
    exec .ckDec s = .next (complete { Results.zero with ctryOut := ckDecode s.sampled.a } s) := rfl

theorem ckDecode_first_toNat (a : Word) : (ckDecode a)[0].toNat = a.toNat / 256 % 256 := field_toNat a 8 8

theorem ckDecode_second_toNat (a : Word) : (ckDecode a)[1].toNat = a.toNat % 256 :=
  (field_toNat a 0 8).trans (congrArg (· % 2 ^ 8) (Nat.div_one a.toNat))

/-- R112: A[63:16] is ignored. -/
theorem ckDecode_congr {a b : Word} (h : a.extractLsb' 0 16 = b.extractLsb' 0 16) : ckDecode a = ckDecode b := by
  obtain ⟨hfirst, hsecond⟩ := byte_of_low a b h
  simp only [ckDecode, hfirst, hsecond]

/-- R113: a key that is the two bytes verbatim decodes to them. -/
theorem ckDecode_ckEncode {s : State} (h : s.cfg.byteExt = .zext ∨ s.sampled.ctryIn[1].toNat < 0x80) :
    ckDecode (ckEncode s) = s.sampled.ctryIn := by
  have hfirst : s.sampled.ctryIn[0].toNat < 256 := s.sampled.ctryIn[0].isLt
  have hsecond : s.sampled.ctryIn[1].toNat < 256 := s.sampled.ctryIn[1].isLt
  rw [country_eq_iff, ckDecode_first_toNat, ckDecode_second_toNat, ckEncode_toNat_verbatim h]
  omega

end Sys2Proof.Machine

open Sys2Proof Sys2Proof.Machine

/-- Settles O27: CK.ENC has no check, and its RES is the formula under either BYTE_EXT. -/
theorem ckEncResult : Obligations.CkEncResult :=
  ⟨decode_encode_ckEnc, fun s => ⟨_, _, exec_ckEnc s, completedWith_complete .., ckEncode_toNat s⟩⟩

/-- Settles O28: the first bad byte is reported, and past the check the command is CK.ENC on bytes below 0x80. -/
theorem ckEncCheckedResult : Obligations.CkEncCheckedResult := by
  refine ⟨decode_encode_ckEncC, fun s => ⟨fun h0 => ?_, fun h0 h1 => ?_, fun hcountry => ?_⟩⟩
  · exact exec_raisedWith (i := .ckEncC) (checkCountry_raise_first h0)
  · exact exec_raisedWith (i := .ckEncC) (checkCountry_raise_second h0 h1)
  · rw [exec_ckEncC_eq_ckEnc hcountry]
    exact ⟨_, _, exec_ckEnc s, completedWith_complete .., ckEncode_toNat_in_domain hcountry, exec_ckEnc s⟩

/-- Settles O29: the two fields of A by their numbers. -/
theorem ckDecResult : Obligations.CkDecResult :=
  ⟨decode_encode_ckDec, fun s => ⟨_, _, exec_ckDec s, completedWith_complete .., ckDecode_first_toNat _,
    ckDecode_second_toNat _⟩⟩

/-- Settles O35: CK.DEC reads the low 16 bits alone, and those of a verbatim key are the two bytes. -/
theorem countryKeyRoundTrip : Obligations.CountryKeyRoundTrip := by
  intro s u h
  refine ⟨_, exec_ckEnc s, fun hlow => ⟨_, exec_ckDec u, ?_⟩⟩
  rw [complete_results] at hlow ⊢
  exact (ckDecode_congr hlow).trans (ckDecode_ckEncode h)
end

section
/-! SUPPORT. The commands that can raise each error (spec 60_exceptions.md R121). The decoder's own error and the error fields of STATUS
have their lemmas above. -/

namespace Sys2Proof.Machine

theorem ErrCode.code_injective : Function.Injective ErrCode.code := by
  intro c c'
  cases c <;> cases c' <;> decide

theorem exec_completes (i : Instr) (s : State) : ∃ t, exec i s = .next t := by
  rcases exec_cases i s with ⟨-, h⟩ | ⟨_, -, h⟩ <;> exact ⟨_, h⟩

/-- The commands in the raised-by column of R121: none for ILLEGAL_CMD, which is the decoder's (R124). -/
def raisedBy : ErrCode → List Instr
  | .illegalCmd => []
  | .lengthRange => [.nkEnc, .nkEncC, .pkEnc, .pkEncC, .nkFromHex]
  | .invalidInput => [.nkEncC, .pkEncC, .ckEncC]
  | .formatError => [.nkFromHex]

/-- R125 to R127: a command's checks raise only the errors whose row of R121 names it. -/
theorem checkOf_raisedBy {i : Instr} {s : State} {e : ErrInfo} (h : checkOf i s = some e) : i ∈ raisedBy e.err := by
  rcases checkOf_cases h with ⟨hi, rfl⟩ | ⟨rfl, rfl⟩ | ⟨hi, _, _, rfl⟩ | ⟨hi, -, _, _, rfl⟩ | ⟨rfl, -, rfl⟩ |
    ⟨rfl, -, _, _, rfl⟩ | ⟨rfl, -, _, _, rfl⟩
  · exact List.mem_append_left [.nkFromHex] hi
  · decide
  · have hsub : [Instr.nkEncC, .ckEncC] ⊆ raisedBy .invalidInput := by decide
    exact hsub hi
  · exact List.mem_append_left [.ckEncC] hi
  all_goals exact List.mem_singleton_self _

/-- The error a command leaves in STATUS.ERR is one R121 has it raise. -/
theorem exec_raisedBy {i : Instr} {s t : State} (h : exec i s = .next t) {c : ErrCode}
    (herr : Status.err t.status = c.code) : i ∈ raisedBy c := by
  rcases exec_cases i s with ⟨-, hexec⟩ | ⟨e, hcheck, hexec⟩ <;> rw [hexec] at h <;> cases h
  · rw [err_complete] at herr
    exact absurd herr.symm c.code_ne_zero
  · have hc : e.err = c := ErrCode.code_injective ((raisedWith_raise e s).status.err.symm.trans herr)
    exact hc ▸ checkOf_raisedBy hcheck

end Sys2Proof.Machine

open Sys2Proof Sys2Proof.Machine

/-- Settles O8: the accepted word does not decode, and the decoder's error is raised before an operand is read. -/
theorem illegalWordRaisesIllegalCmd : Obligations.IllegalWordRaisesIllegalCmd := by
  intro s p rest hidle hrequests hillegal
  obtain ⟨e, hdecode⟩ := (illegalWordsAreTheReservedOnes p.cmd).2 hillegal
  rw [step_request hidle hrequests]
  exact ⟨_, runSampled_of_illegal (s := accept p { s with requests := rest }) hdecode, raisedWith_raise illegalCmd _⟩

/-- Settles O40: a completion is sound on allowed parameters, which it keeps. -/
theorem errorFieldsAreARowOfTheTable : Obligations.ErrorFieldsAreARowOfTheTable := by
  intro s hc
  obtain ⟨t, ht⟩ := runSampled_completes s
  exact ⟨t, ht, (runSampled_finished ht).cfg ▸ (runSampled_sound hc ht).fields⟩

/-- Settles O41: each error the command leaves is read off the raised-by column, which is empty for ILLEGAL_CMD. -/
theorem eachErrorHasItsCommands : Obligations.EachErrorHasItsCommands := by
  intro i s
  obtain ⟨t, ht⟩ := exec_completes i s
  exact ⟨t, ht, fun h => List.not_mem_nil (exec_raisedBy ht (c := .illegalCmd) h),
    exec_raisedBy ht (c := .lengthRange), exec_raisedBy ht (c := .invalidInput),
    fun h => List.mem_singleton.1 (exec_raisedBy ht (c := .formatError) h)⟩

/-- Settles O12: the step is an idle edge, which writes DONE alone. -/
theorem idleStepHoldsTheRegisters : Obligations.IdleStepHoldsTheRegisters := by
  intro s rest hidle hrequests
  exact ⟨idleEdge { s with requests := rest }, step_request hidle hrequests, rfl, rfl, hidle, rfl, rfl, rfl⟩
end

section
/-! SUPPORT. Resets, the handshake and the sign bit of a key (spec 70_reset_and_hazards.md): what a clock edge does to a command in flight
(R140, R146 to R148), that the signal level ends where the atomic step ends (R149), and bit 63 of a NumKey (R152). -/

namespace Sys2Proof.Machine

/-! ### Bit 63 of a NumKey -/

/-- R57: bit 63 is the top bit of the first letter field. -/
theorem msb_iff_nkL1 (a : Word) : a.msb = true ↔ 16 ≤ (nkL1 a).toNat := by
  rw [BitVec.msb_eq_decide, decide_eq_true_iff, nkL1_toNat]
  omega

/-! ### CMD_READY -/

theorem cmdReady_of_reset {rst : Bool} (h : rst = true) (s : State) : cmdReady rst s = false := by simp [cmdReady, h]

theorem cmdReady_of_idle {rst : Bool} {s : State} (hr : rst = false) (hp : s.phase = .idle) : cmdReady rst s = true := by
  simp [cmdReady, hr, hp]

theorem cmdReady_of_busy (rst : Bool) {s : State} {n : Nat} (hp : s.phase = .busy n) : cmdReady rst s = false := by
  simp [cmdReady, hp]

/-! ### One edge of the handshake -/

/-- R148: while BUSY an edge without RST does not look at the other pins. -/
theorem clockEdge_busy_congr {s : State} {n : Nat} {pins pins' : Pins} (hr : pins.rst = false) (hr' : pins'.rst = false)
    (hp : s.phase = .busy n) : clockEdge pins s = clockEdge pins' s := by
  cases n with
  | zero => rw [clockEdge_complete hr hp, clockEdge_complete hr' hp]
  | succ n => rw [clockEdge_wait hr hp, clockEdge_wait hr' hp]

/-- R144, R147: only the completing edge raises DONE, so no edge of an idle machine does. -/
theorem clockEdge_done_of_idle {s t : State} {pins : Pins} (hp : s.phase = .idle) (h : clockEdge pins s = .next t) :
    t.done = false := by
  rcases clockEdge_cases h with ⟨-, rfl⟩ | ⟨-, -, -, rfl⟩ | ⟨-, -, -, rfl⟩ | ⟨-, hbusy, -⟩ | ⟨-, n, hbusy, -⟩
  · rfl
  · rfl
  · rfl
  · cases hp.symm.trans hbusy
  · cases hp.symm.trans hbusy

theorem runEdges_singleton (pins : Pins) (s : State) : runEdges [pins] s = clockEdge pins s := by
  obtain ⟨t, ht⟩ := clockEdge_completes pins s
  rw [runEdges_cons ht, ht, runEdges]

/-! ### A command in flight -/

/-- `s` with the ports `p` accepted and `n` edges to pass before the completing one. -/
def waiting (p : Ports) (n : Nat) (s : State) : State := { accept p s with phase := .busy n }

theorem clockEdge_waiting {pins : Pins} (hr : pins.rst = false) (p : Ports) (n : Nat) (s : State) :
    clockEdge pins (waiting p (n + 1) s) = .next (waiting p n s) :=
  clockEdge_wait hr rfl

/-- R147, R148: edges without RST, fewer than complete the command, only count down, and the run goes on from there. -/
theorem runEdges_waiting {later : List Pins} (hno : NoReset later) (after : List Pins) (p : Ports) (n : Nat) (s : State) :
    runEdges (later ++ after) (waiting p (n + later.length) s) = runEdges after (waiting p n s) := by
  induction later with
  | nil => rfl
  | cons pins later ih =>
    obtain ⟨hr, hno⟩ := List.forall_mem_cons.1 hno
    rw [List.cons_append, List.length_cons, ← Nat.add_assoc, runEdges_cons (clockEdge_waiting hr p (n + later.length) s)]
    exact ih hno

/-- R146 to R148: an accept edge and then edges without RST, fewer than LATENCY, leave the command in flight. -/
theorem runEdges_accept {first : Pins} (hr : first.rst = false) (hv : first.cmdValid = true) {s : State}
    (hp : s.phase = .idle) {later : List Pins} (hno : NoReset later) {n : Nat}
    (hn : n + later.length = Config.latencyLessOne first.ports) (after : List Pins) :
    runEdges (first :: (later ++ after)) s = runEdges after (waiting first.ports n s) := by
  have haccept : accept first.ports s = waiting first.ports (n + later.length) s := by rw [hn]; rfl
  rw [runEdges_cons (clockEdge_accept hr hv hp), haccept, runEdges_waiting hno]

/-- R147: the completing edge runs the accepted command. -/
theorem clockEdge_waiting_zero {pins : Pins} (hr : pins.rst = false) (p : Ports) (s : State) :
    clockEdge pins (waiting p 0 s) = runSampled (accept p s) := by
  rw [clockEdge_complete hr rfl]
  exact runSampled_phase (accept p s) (.busy 0)

/-- R140: a reset leaves nothing of the command in flight. -/
theorem resetOp_waiting (p : Ports) (n : Nat) (s : State) : resetOp (waiting p n s) = resetOp s := rfl

/-! ### The atomic step -/

theorem step_with_request {s : State} (hp : s.phase = .idle) (act : HostAction) (rest : List HostAction) :
    step { s with requests := act :: rest } = transact act { s with requests := rest } :=
  step_request (s := { s with requests := act :: rest }) hp rfl

/-- R140: the command that is abandoned leaves no trace. -/
theorem transact_abort (p : Ports) (s : State) : transact (.abort p) s = transact .reset s := rfl

end Sys2Proof.Machine

open Sys2Proof Sys2Proof.Machine

/-- Settles O37: in domain the first letter field is the letter's place in the alphabet, and 'P' is the sixteenth. -/
theorem topBitIsSetFromP : Obligations.TopBitIsSetFromP := by
  intro s hlen hcountry hnumber
  refine ⟨_, exec_nkEnc hlen, ?_⟩
  obtain ⟨hl1, -⟩ := formula_in_domain hcountry hnumber
  rw [complete_results, msb_iff_nkL1, hl1]
  omega

/-- Settles O53: a waiting edge counts down alone, and the completing edge is a completion. -/
theorem busyEdgeIgnoresThePins : Obligations.BusyEdgeIgnoresThePins := by
  intro s n pins pins' hr hr' hp
  refine ⟨cmdReady_of_busy _ hp, clockEdge_busy_congr hr hr' hp, ?_⟩
  cases n with
  | zero =>
    obtain ⟨t, ht⟩ := runSampled_completes s
    obtain ⟨hphase, hdone, -, hsampled, -⟩ := runSampled_finished ht
    exact ⟨t, (clockEdge_complete hr hp).trans ht, hsampled, nofun, fun _ => ⟨hphase, hdone⟩⟩
  | succ n => exact ⟨_, clockEdge_wait hr hp, rfl, fun _ => ⟨rfl, rfl, rfl, rfl⟩, nofun⟩

/-- Settles O54: the completion raises DONE and leaves the machine idle, and no edge of an idle machine raises it. -/
theorem doneLastsOneCycle : Obligations.DoneLastsOneCycle := by
  intro s first second hp hr
  obtain ⟨t, ht⟩ := runSampled_completes s
  obtain ⟨hphase, hdone, -⟩ := runSampled_finished ht
  obtain ⟨u, hu⟩ := clockEdge_completes second t
  exact ⟨t, u, (clockEdge_complete hr hp).trans ht, hdone, hu, clockEdge_done_of_idle hphase hu⟩

/-- Settles O55: all edges but the last count down, and the last runs what the atomic step runs, which does not depend on the phase. -/
theorem handshakeRefinesTheAtomicStep : Obligations.HandshakeRefinesTheAtomicStep := by
  intro s first later rest hp hr hv hno hlen
  obtain rfl | ⟨waits, last, rfl⟩ := List.eq_nil_or_concat' later
  · cases hlen
  · obtain ⟨hwaits, hlast⟩ := List.forall_mem_append.1 hno
    have hn : 0 + waits.length = Config.latencyLessOne first.ports := by
      simpa [Config.latency] using hlen
    obtain ⟨t, ht⟩ := runSampled_completes (accept first.ports { s with requests := rest })
    refine ⟨t, ?_, (step_with_request hp (.command first.ports) rest).trans ht⟩
    rw [runEdges_accept (s := { s with requests := rest }) hr hv hp hwaits hn, runEdges_singleton,
      clockEdge_waiting_zero (hlast last (List.mem_singleton_self last)), ht]

/-- Settles O56: the command is still in flight at the edge with RST, and a reset leaves nothing of it. -/
theorem resetInFlightRefinesAbort : Obligations.ResetInFlightRefinesAbort := by
  intro s first last later rest hp hr hv hlast hno hlen
  obtain ⟨n, hn⟩ := Nat.exists_eq_add_of_le' (Nat.lt_succ_iff.1 hlen)
  refine ⟨resetOp { s with requests := rest }, ?_, step_with_request hp (.abort first.ports) rest⟩
  rw [runEdges_accept (s := { s with requests := rest }) hr hv hp hno hn.symm, runEdges_singleton, clockEdge_reset hlast,
    resetOp_waiting]

/-- Settles O6: the step of a busy machine runs the sampled word. -/
theorem stepCompletesTheCommandInFlight : Obligations.StepCompletesTheCommandInFlight := by
  intro s n i hp hdecode
  rw [step_busy hp, runSampled_of_decode hdecode]

/-- Settles O10: the step is the reset operation on the state without the action. -/
theorem resetStepGivesTheResetState : Obligations.ResetStepGivesTheResetState := by
  intro s rest hp hrequests
  exact ⟨resetOp { s with requests := rest }, step_request hp hrequests, rfl, rfl, rfl, rfl, rfl, rfl⟩

/-- Settles O11: both steps are the same reset operation, which forgets the accepted ports. -/
theorem resetAbandonsTheCommandInFlight : Obligations.ResetAbandonsTheCommandInFlight := by
  intro s p rest hp hrequests
  refine ⟨?_, resetOp { s with requests := rest }, step_request hp hrequests, rfl, rfl, rfl, rfl⟩
  rw [step_request hp hrequests, transact_abort, step_with_request hp]

/-- Settles O51: with RST the edge is the reset operation in every phase. -/
theorem resetEdgeResets : Obligations.ResetEdgeResets := by
  intro s pins hr
  exact ⟨cmdReady_of_reset hr s, _, clockEdge_reset hr, rfl, rfl, rfl, rfl, fun _ _ => rfl⟩

/-- Settles O52: CMD_VALID alone decides between an accept and an idle edge. -/
theorem acceptEdgeSamplesThePorts : Obligations.AcceptEdgeSamplesThePorts := by
  intro s pins hr hp
  refine ⟨cmdReady_of_idle hr hp, ?_⟩
  cases hv : pins.cmdValid with
  | true => exact ⟨_, clockEdge_accept hr hv hp, rfl, rfl, rfl, fun _ => ⟨rfl, _, rfl, rfl⟩, nofun⟩
  | false => exact ⟨_, clockEdge_idle hr hv hp, rfl, rfl, rfl, nofun, fun _ => ⟨rfl, hp⟩⟩
end

section
/-! SUPPORT. Where a run stops: an idle machine whose host presents nothing more (93_implementation_defined.md U14, log entry 4), and
nowhere else. -/

namespace Sys2Proof.Machine

/-- A command in flight completes, and so does every action of the host. -/
theorem step_completes {s : State} (h : ¬(s.phase = .idle ∧ s.requests = [])) : ∃ t, step s = .next t := by
  rcases phase_cases s with ⟨n, hp⟩ | hp
  · rw [step_busy hp]
    exact runSampled_completes s
  · cases hr : s.requests with
    | nil => exact absurd ⟨hp, hr⟩ h
    | cons act rest =>
      rw [step_request hp hr]
      exact transact_completes act _

end Sys2Proof.Machine

open Sys2Proof Sys2Proof.Machine

/-- Settles O13: the silent host's step is the fault, and a step from any other state completes, so it is no fault. -/
theorem onlyASilentHostStopsTheRun : Obligations.OnlyASilentHostStopsTheRun := by
  intro s
  refine ⟨⟨fun hfault => ?_, fun ⟨hp, hr⟩ => step_silent hp hr⟩, step_completes⟩
  by_contra hrunning
  obtain ⟨t, hnext⟩ := step_completes hrunning
  rw [hnext] at hfault
  cases hfault
end
